-- ==== Sys2Proof/Word.lean ====
section
/-! DEFINITION. The word types of the block, one name per data format of spec/30_encoding.md section 1 and per
register width of spec/10_state.md R10. Every value is unsigned (spec/00_scope.md R8). -/

namespace Sys2Proof

/-- A symbol code: `S` = 5 bits, bit 4 the first bit in the packed stream (R45). -/
abbrev Code := BitVec 5

/-- A packed word: `W` = 16 bits, bit 15 the earliest stream bit (R46). -/
abbrev PackedWord := BitVec 16

/-- An output character: `CHW` = 8 bits (R50). -/
abbrev Character := BitVec 8

/-- A command word, CMD24 (R51). -/
abbrev CommandWord := BitVec 24

/-- The operation code field `OPC` of a command word (R51). -/
abbrev Opc := BitVec 8

/-- The operand field `OPD` of a command word: also the datum of width `IW` (R51, R53). -/
abbrev Operand := BitVec 16

/-- One entry of the table ROM: `KIND` in bits 9:8, `PAYLOAD` in bits 7:0 (R48). -/
abbrev EntryBits := BitVec 10

/-- An entry address of the table ROM (R30). -/
abbrev TableAddress := BitVec 6

/-- The contents of the table ROM: 64 entries, every address present (R30, R31). -/
abbrev TableRom := Vector EntryBits 64

end Sys2Proof
end

