-- ==== Sys2Proof/Config.lean ====
section
/-! DEFINITION. The implementation parameters of spec/00_scope.md R6, and the two parameters the spec leaves OPEN
(`TABLES`, `HOST_BYTE_ORDER`) as constants without a body. -/

namespace Sys2Proof

/-- `S`, the symbol width in bits (R6). -/
abbrev Config.S : Nat := 5

/-- `W`, the packed-word width in bits (R6). -/
abbrev Config.W : Nat := 16

/-- `AW`, the accumulator width: `W + S - 1` (R6, R11). -/
abbrev Config.AW : Nat := Config.W + Config.S - 1

/-- `HW`, the width of a held-bit count, `ceil(log2(W + S))` (R6, R12). -/
abbrev Config.HW : Nat := 5

/-- `IW`, the width of the datum of PK.PUSH and DC.PUSH (R6). -/
abbrev Config.IW : Nat := 16

/-- `CW`, the width of the unpacker's count registers (R6). -/
abbrev Config.CW : Nat := 16

/-- `CHW`, the width of an output character (R6). -/
abbrev Config.CHW : Nat := 8

/-- `QMARK`, the placeholder character `?` (R6, R50; its code 0x3F is from the spec's general knowledge, G1). -/
abbrev Config.QMARK : Character := 0x3F#8

/-- `NSTATE`, the number of decoder states (R6). -/
abbrev Config.NSTATE : Nat := 2

/-- `NCODE`, the number of entries of one symbol table (R6). -/
abbrev Config.NCODE : Nat := 32

/-- The value of `DC.SHIFT` that names the Letters table (R19). -/
abbrev Config.LETTERS : BitVec 1 := 0#1

/-- The value of `DC.SHIFT` that names the Figures table (R19). -/
abbrev Config.FIGURES : BitVec 1 := 1#1

/-- `TABLES`, the contents of the table ROM of one implementation: OPEN in the spec (R6, R49, decision D26), so a
constant without a body. DESIGN CHOICE safe (log 4): nothing about any entry can be proved. -/
opaque Config.tables : TableRom

/-- The order in which a host lays the two bytes of a packed word into byte-addressed storage (R37). -/
inductive ByteOrder where
  /-- the high byte first -/
  | big
  /-- the low byte first -/
  | little
deriving DecidableEq, Repr, Inhabited

/-- `HOST_BYTE_ORDER`: OPEN in the spec (R37, decision D19), so a constant without a body. DESIGN CHOICE safe (log 10).
The block itself has no byte order; only the host-link functions mention one. -/
opaque Config.hostByteOrder : ByteOrder

/-- What a table entry says (R48): the four outcomes of a lookup. -/
inductive TableEntry where
  /-- the code has no entry in this table -/
  | absent
  /-- the code stands for a literal character -/
  | char (c : Character)
  /-- the code is a shift directive naming the state to go to -/
  | shift (target : BitVec 1)
  /-- the designated blank entry, which produces no output -/
  | null
deriving DecidableEq, Repr

end Sys2Proof
end

