-- ==== Sys2Proof/Syntax.lean ====
section
/-! DEFINITION. The command set: one constructor per row of spec/opcode_table.json (spec/30_encoding.md R52). -/

namespace Sys2Proof

/-- The seven commands. Every constructor carries its 16-bit operand field, also where the command ignores it
(R53, R54: every 16-bit `OPD` is legal for every defined `OPC`), so that no bit of a command word is dropped (log 8). -/
inductive Instr where
  /-- PK.START: begin a pack invocation (R60); the operand is ignored -/
  | pkStart (opd : Operand)
  /-- PK.PUSH: take in one symbol code, the low 5 bits of the datum (R61) -/
  | pkPush (d : Operand)
  /-- PK.FLUSH: emit the residue and end the invocation (R62); the operand is ignored -/
  | pkFlush (opd : Operand)
  /-- UP.START: begin an unpack invocation of `n` codes (R70) -/
  | upStart (n : Operand)
  /-- UP.PUSH: take in one packed word (R71) -/
  | upPush (w : Operand)
  /-- DC.START: begin a decode invocation (R80); the operand is ignored -/
  | dcStart (opd : Operand)
  /-- DC.PUSH: look one symbol code up, the low 5 bits of the datum (R81) -/
  | dcPush (d : Operand)
deriving DecidableEq, Repr

/-- The three independent units (R1, R41). -/
inductive CodecUnit where
  /-- the packer -/
  | pk
  /-- the unpacker -/
  | up
  /-- the decoder -/
  | dc
deriving DecidableEq, Repr

/-- The unit a command belongs to (R52: the high nibble of `OPC`). -/
def Instr.unit : Instr → CodecUnit
  | .pkStart _ => .pk
  | .pkPush _ => .pk
  | .pkFlush _ => .pk
  | .upStart _ => .up
  | .upPush _ => .up
  | .dcStart _ => .dc
  | .dcPush _ => .dc

end Sys2Proof
end

