-- ==== Sys2Proof/WellFormed.lean ====
section
/-! DEFINITION. What can be checked of a command before it runs. The operands are typed by their widths and every
16-bit operand is legal for every defined opcode (spec/30_encoding.md R54), so no `Instr` is illegal; what is checked
is that a command WORD is not reserved, that an instruction is in the form the assembler gives it, and that a pair of
widths is one the packer and unpacker rules cover. -/

namespace Sys2Proof

/-- The seven defined operation codes (R52). -/
def definedOpc (opc : Opc) : Bool :=
  opc == 0x10#8 || opc == 0x11#8 || opc == 0x12#8 || opc == 0x20#8 || opc == 0x21#8 || opc == 0x30#8 || opc == 0x31#8

/-- A command word is well formed when its `OPC` is not reserved (R54). -/
def wordWellFormed (w : CommandWord) : Bool :=
  definedOpc (w.extractLsb' 16 8)

/-- An instruction is canonical when an operand it ignores is zero, as the assembler writes it (R56). Every other
instruction runs just the same (R53). -/
def Instr.canonical : Instr → Bool
  | .pkStart opd => opd == 0#16
  | .pkPush _ => true
  | .pkFlush opd => opd == 0#16
  | .upStart _ => true
  | .upPush _ => true
  | .dcStart opd => opd == 0#16
  | .dcPush _ => true

/-- The width parameters the packer and unpacker rules are written for: `S >= 1` and `W >= 1` (R7). -/
def widthsWellFormed (S W : Nat) : Bool :=
  decide (1 ≤ S) && decide (1 ≤ W)

end Sys2Proof
end

