-- ==== Sys2Proof/Decode.lean ====
section
/-! DEFINITION. The command decoder and encoder, from spec/30_encoding.md R51 to R54 and spec/opcode_table.json. -/

namespace Sys2Proof

/-- Why a command word is not one of the seven commands. -/
inductive DecodeReject where
  /-- the operation code is one of the 249 reserved ones (R52, R54) -/
  | reservedOpc (opc : Opc)
deriving DecidableEq, Repr

/-- `OPC`, bits 23:16 of a command word (R51). -/
def opcField (w : CommandWord) : Opc :=
  w.extractLsb' 16 8

/-- `OPD`, bits 15:0 of a command word, unsigned, unscaled (R51, R53). -/
def opdField (w : CommandWord) : Operand :=
  w.extractLsb' 0 16

/-- The command a word stands for: all eight bits of `OPC` are matched (R52), every other value is rejected by name. -/
def decode (w : CommandWord) : Except DecodeReject Instr :=
  if opcField w = 0x10#8 then .ok (.pkStart (opdField w))
  else if opcField w = 0x11#8 then .ok (.pkPush (opdField w))
  else if opcField w = 0x12#8 then .ok (.pkFlush (opdField w))
  else if opcField w = 0x20#8 then .ok (.upStart (opdField w))
  else if opcField w = 0x21#8 then .ok (.upPush (opdField w))
  else if opcField w = 0x30#8 then .ok (.dcStart (opdField w))
  else if opcField w = 0x31#8 then .ok (.dcPush (opdField w))
  else .error (.reservedOpc (opcField w))

/-- The operation code of a command (R52). -/
def Instr.opc : Instr → Opc
  | .pkStart _ => 0x10#8
  | .pkPush _ => 0x11#8
  | .pkFlush _ => 0x12#8
  | .upStart _ => 0x20#8
  | .upPush _ => 0x21#8
  | .dcStart _ => 0x30#8
  | .dcPush _ => 0x31#8

/-- The operand field of a command (R53). -/
def Instr.opd : Instr → Operand
  | .pkStart opd => opd
  | .pkPush d => d
  | .pkFlush opd => opd
  | .upStart n => n
  | .upPush w => w
  | .dcStart opd => opd
  | .dcPush d => d

/-- The command word `{OPC, OPD}` of a command (R51). -/
def encode (i : Instr) : CommandWord :=
  i.opc ++ i.opd

/-- One row of spec/opcode_table.json: the bits that are compared, their values, and the command. -/
structure OpcodeRow where
  /-- the row's mask -/
  mask : CommandWord
  /-- the row's match value -/
  pattern : CommandWord
  /-- the command with a given operand field -/
  command : Operand → Instr

/-- spec/opcode_table.json, row for row. -/
def opcodeTable : List OpcodeRow :=
  [⟨0xFF0000#24, 0x100000#24, .pkStart⟩, ⟨0xFF0000#24, 0x110000#24, .pkPush⟩, ⟨0xFF0000#24, 0x120000#24, .pkFlush⟩,
   ⟨0xFF0000#24, 0x200000#24, .upStart⟩, ⟨0xFF0000#24, 0x210000#24, .upPush⟩,
   ⟨0xFF0000#24, 0x300000#24, .dcStart⟩, ⟨0xFF0000#24, 0x310000#24, .dcPush⟩]

/-- The command word whose low `nbits` bits are those of `w` and whose other bits are zero. DESIGN CHOICE safe (log 14):
every row of the opcode table has 24 bits, so for the table's own `nbits` nothing is cut or filled. -/
def tableWord (nbits w : Nat) : CommandWord :=
  BitVec.ofNat 24 (w % 2 ^ nbits)

/-- The command the decoder reads from the word the opcode table numbers `w` (bit 0 the least significant). -/
def decodeTableWord (nbits w : Nat) : Option Instr :=
  match decode (tableWord nbits w) with
  | .ok i => some i
  | .error _ => none

end Sys2Proof
end

