-- ==== Sys2Proof/Machine/State.lean ====
section
/-! DEFINITION. The state of the block: the seven registers of spec/10_state.md R10, the three output streams (R26),
the table ROM the step reads (R27, R30), and the host inputs not yet taken (spec/60_exceptions.md R120). -/

namespace Sys2Proof.Machine

/-- What a host can send to the block (R120): a command word, or the RESET event, which has no encoding (R130). -/
inductive HostInput where
  /-- issue a command word -/
  | command (w : CommandWord)
  /-- apply RESET -/
  | reset
deriving DecidableEq, Repr

/-- The packer's registers (R10). -/
structure Packer where
  /-- `PK.ACC`, 20 bits (R11) -/
  acc : BitVec 20
  /-- `PK.HELD`, 5 bits (R12) -/
  held : BitVec 5
deriving DecidableEq, Repr

/-- The unpacker's registers (R10). -/
structure Unpacker where
  /-- `UP.ACC`, 20 bits (R14) -/
  acc : BitVec 20
  /-- `UP.HELD`, 5 bits (R15) -/
  held : BitVec 5
  /-- `UP.COUNT`, 16 bits (R16) -/
  count : BitVec 16
  /-- `UP.EMITTED`, 16 bits (R17) -/
  emitted : BitVec 16
deriving DecidableEq, Repr

/-- The decoder's register (R10). -/
structure Decoder where
  /-- `DC.SHIFT`, 1 bit: 0 = LETTERS, 1 = FIGURES (R19) -/
  shift : BitVec 1
deriving DecidableEq, Repr

/-- The machine. -/
structure State where
  /-- unit PK -/
  pk : Packer
  /-- unit UP -/
  up : Unpacker
  /-- unit DC -/
  dc : Decoder
  /-- the stream `PK_OUT`, oldest value first (R26; log 5) -/
  pkOut : List PackedWord
  /-- the stream `UP_OUT`, oldest value first (R26; log 5) -/
  upOut : List Code
  /-- the stream `DC_OUT`, oldest value first (R26; log 5) -/
  dcOut : List Character
  /-- `TABLES`, the argument of the step function that never changes (R27; log 4) -/
  tables : TableRom
  /-- the MODEL's own field: the host inputs issued and not yet executed, next one first (R40, R120; log 1) -/
  pending : List HostInput
deriving DecidableEq, Repr

/-- Why a step stops with a fault: never. The block raises no exception (R110), so the type has no constructor; safe. -/
inductive Fault where
deriving DecidableEq, Repr

/-- Why a step answers no meaning. -/
inductive Refusal where
  /-- raised by `exec` for a command whose meaning is not written yet: safe. No arm raises it, every command has one. -/
  | notModelled (mnemonic : String)
deriving DecidableEq, Repr

/-- The machine right after the first RESET (R10, R29, R130): every register zero, `DC.SHIFT` = LETTERS. DESIGN CHOICE:
empty streams (log 5), nothing pending (log 1), and the ROM of the implementation, of which nothing is known (log 4). -/
def State.reset : State where
  pk := { acc := 0#20, held := 0#5 }
  up := { acc := 0#20, held := 0#5, count := 0#16, emitted := 0#16 }
  dc := { shift := Config.LETTERS }
  pkOut := []
  upOut := []
  dcOut := []
  tables := Config.tables
  pending := []

end Sys2Proof.Machine
end

