-- ==== Sys2Proof/Machine/Operands.lean ====
section
/-! DEFINITION. Operand forms (spec/30_encoding.md R53) and the reading of the table ROM (spec/20_memory.md R31, R32). -/

namespace Sys2Proof.Machine

/-- `mask_N(v)`: the low `N` bits of a value (R8). -/
def maskTo (n v : Nat) : Nat :=
  v % 2 ^ n

/-- `mask_5(d)`: the symbol code of a datum, `d[4:0]`; bits 15:5 are ignored (R45, R53). -/
def symbolOf (d : Operand) : Code :=
  d.extractLsb' 0 5

/-- How a host presents an integer as a datum: its low 16 bits, two's complement for a negative one (R53). -/
def presentInt (c : Int) : Operand :=
  BitVec.ofInt 16 c

/-- The entry address `{st, c}` = `32 * st + c` (R31). -/
def tableAddress (st : BitVec 1) (c : Code) : TableAddress :=
  st ++ c

/-- `TableRead(a)`: one whole entry; every address exists (R31, R32). -/
def tableRead (rom : TableRom) (a : TableAddress) : EntryBits :=
  rom[a.toNat]'a.isLt

/-- `KIND`, bits 9:8 of an entry (R48). -/
def entryKind (e : EntryBits) : BitVec 2 :=
  e.extractLsb' 8 2

/-- `PAYLOAD`, bits 7:0 of an entry (R48). -/
def entryPayload (e : EntryBits) : Character :=
  e.extractLsb' 0 8

/-- What an entry says (R48). Payload bits the kind does not use are ignored. -/
def entryOf (e : EntryBits) : TableEntry :=
  if entryKind e = 0b00#2 then .absent
  else if entryKind e = 0b01#2 then .char (entryPayload e)
  else if entryKind e = 0b10#2 then .shift ((entryPayload e).extractLsb' 0 1)
  else .null

end Sys2Proof.Machine
end

