-- ==== Sys2Proof/Machine/Ops.lean ====
section
/-! DEFINITION. The shared operations: the residue arithmetic of the packer and the unpacker, written once for every
pair of widths (spec/00_scope.md R7) on exact naturals (spec/40_packer.md R63, spec/41_unpacker.md R74), the narrowing
register writes, the emits (spec/00_scope.md R9), the RESET event and the taking of one host input. There is no
exception to take and none to return from (spec/60_exceptions.md R110, R115, R116). -/

namespace Sys2Proof.Machine

/-- The bits a unit holds between taking them in and emitting them: right-justified in `acc`, `held` of them (R11, R14). -/
structure Residue where
  /-- the accumulator's value -/
  acc : Nat
  /-- the number of valid bits -/
  held : Nat
deriving DecidableEq, Repr

/-- No bits held. -/
def Residue.empty : Residue :=
  ⟨0, 0⟩

/-- Shift `n` bits of `v` in below the bits held: `ACC <- (ACC << n) | v; HELD <- HELD + n` (R61, R71). -/
def Residue.shiftIn (n v : Nat) (r : Residue) : Residue :=
  ⟨(r.acc <<< n) ||| v, r.held + n⟩

/-- The top `n` of the bits held: `(ACC >> (HELD - n))[n-1:0]` (R61, R71). -/
def Residue.top (n : Nat) (r : Residue) : Nat :=
  maskTo n (r.acc >>> (r.held - n))

/-- Remove the top `n` bits: `HELD <- HELD - n; ACC <- ACC[HELD-1:0]` (R61, R71). -/
def Residue.dropTop (n : Nat) (r : Residue) : Residue :=
  ⟨maskTo (r.held - n) r.acc, r.held - n⟩

/-- The emission loop of PK.PUSH and UP.PUSH (R61, R71): while at least `n` bits are held and fewer than `limit` values
are out, emit the top `n` bits and remove them. Answers the values in order, and what is left. -/
def drain (n : Nat) : (limit : Nat) → Residue → List Nat × Residue
  | 0, r => ([], r)
  | limit + 1, r =>
    if n ≤ r.held then
      (r.top n :: (drain n limit (r.dropTop n)).1, (drain n limit (r.dropTop n)).2)
    else ([], r)

/-- The per-code step of the packer for widths `S`, `W` (R61): mask, shift in, emit whole words. The loop has no count
limit; with `W >= 1` it runs at most `held + S` times (R106), which is the bound given here (log 9). -/
def packStep (S W : Nat) (r : Residue) (d : Nat) : List Nat × Residue :=
  drain W (r.held + S) (r.shiftIn S (maskTo S d))

/-- The termination step of the packer for word width `W` (R62): the residue left-justified, zero-padded, if any. -/
def packFinish (W : Nat) (r : Residue) : List Nat :=
  if 0 < r.held then [maskTo W (r.acc <<< (W - r.held))] else []

/-- The per-word step of the unpacker for widths `S`, `W` when `remaining` codes are still to come (R71). -/
def unpackStep (S W remaining : Nat) (r : Residue) (w : Nat) : List Nat × Residue :=
  drain S remaining (r.shiftIn W w)

/-- The packer's residue (R11, R12). -/
def Packer.residue (p : Packer) : Residue :=
  ⟨p.acc.toNat, p.held.toNat⟩

/-- The unpacker's residue (R14, R15). -/
def Unpacker.residue (u : Unpacker) : Residue :=
  ⟨u.acc.toNat, u.held.toNat⟩

/-- Write `PK.ACC` and `PK.HELD`, narrowed to their widths; no rule writes a value that does not fit (R63; log 7). -/
def State.writePk (s : State) (r : Residue) : State :=
  { s with pk := { acc := BitVec.ofNat 20 r.acc, held := BitVec.ofNat 5 r.held } }

/-- Write `UP.ACC` and `UP.HELD`, narrowed to their widths (R74; log 7). -/
def State.writeUp (s : State) (r : Residue) : State :=
  { s with up := { s.up with acc := BitVec.ofNat 20 r.acc, held := BitVec.ofNat 5 r.held } }

/-- Write `UP.COUNT` (R70). -/
def State.writeCount (s : State) (n : BitVec 16) : State :=
  { s with up := { s.up with count := n } }

/-- Write `UP.EMITTED` (R70, R71). -/
def State.writeEmitted (s : State) (n : BitVec 16) : State :=
  { s with up := { s.up with emitted := n } }

/-- Write `DC.SHIFT` (R80, R82). -/
def State.writeShift (s : State) (st : BitVec 1) : State :=
  { s with dc := { shift := st } }

/-- `emit PK_OUT` for each word in order (R9, R26). -/
def State.emitPk (s : State) (ws : List Nat) : State :=
  { s with pkOut := s.pkOut ++ ws.map (BitVec.ofNat 16) }

/-- `emit UP_OUT` for each code in order (R9, R26). -/
def State.emitUp (s : State) (cs : List Nat) : State :=
  { s with upOut := s.upOut ++ cs.map (BitVec.ofNat 5) }

/-- `emit DC_OUT` for each character in order (R9, R26). -/
def State.emitDc (s : State) (cs : List Character) : State :=
  { s with dcOut := s.dcOut ++ cs }

/-- The RESET event (R130): every register zero, `DC.SHIFT` = LETTERS; streams, ROM and host queue untouched (R131). -/
def applyReset (s : State) : State :=
  ((((s.writePk .empty).writeUp .empty).writeCount 0#16).writeEmitted 0#16).writeShift Config.LETTERS

/-- A reserved command word: a no-operation (R54, R112). DESIGN CHOICE unsafe (log 3): the spec's decision D10, which its
U1 advises not to rely on. -/
def execReserved (_ : DecodeReject) (s : State) : Host.Outcome State Fault Refusal :=
  .next s

/-- Nothing pending: the block waits. DEDUCED safe (log 2): it acts only when the host issues a command or applies RESET
(R113, R120). -/
def execIdle (s : State) : Host.Outcome State Fault Refusal :=
  .next s

/-- Take the next host input, if there is one (R40: in the order issued). -/
def takeInput (s : State) : Option (HostInput × State) :=
  match s.pending with
  | [] => none
  | input :: rest => some (input, { s with pending := rest })

/-- The host issues inputs: they are executed after those already pending (R40). -/
def State.issue (s : State) (inputs : List HostInput) : State :=
  { s with pending := s.pending ++ inputs }

end Sys2Proof.Machine
end

