-- ==== Sys2Proof/Machine/DecoderUnit.lean ====
section
/-! DEFINITION. The decoder's commands (spec/42_decoder.md). -/

namespace Sys2Proof.Machine

/-- The characters an entry emits (R86, output column). -/
def entryOutput : TableEntry → List Character
  | .absent => [Config.QMARK]
  | .char c => [c]
  | .shift _ => []
  | .null => []

/-- The state an entry leads to from `st` (R86, next-state column). -/
def entryNext (st : BitVec 1) : TableEntry → BitVec 1
  | .absent => st
  | .char _ => st
  | .shift target => target
  | .null => st

/-- The entry a datum selects in a state: mask first, look up second (R81, R114). -/
def lookup (rom : TableRom) (st : BitVec 1) (d : Operand) : TableEntry :=
  entryOf (tableRead rom (tableAddress st (symbolOf d)))

/-- DC.START (R80): LETTERS, nothing emitted; `OPD` ignored. -/
def execDcStart (_opd : Operand) (s : State) : Host.Outcome State Fault Refusal :=
  .next (s.writeShift Config.LETTERS)

/-- DC.PUSH (R81 to R86): one table read in the state before the command, then the entry's output and next state. -/
def execDcPush (d : Operand) (s : State) : Host.Outcome State Fault Refusal :=
  let e := lookup s.tables s.dc.shift d
  .next ((s.writeShift (entryNext s.dc.shift e)).emitDc (entryOutput e))

end Sys2Proof.Machine
end

