-- ==== Sys2Proof/Machine/PackerUnit.lean ====
section
/-! DEFINITION. The packer's commands (spec/40_packer.md). -/

namespace Sys2Proof.Machine

/-- PK.START (R60): both registers zero, nothing emitted; `OPD` ignored. -/
def execPkStart (_opd : Operand) (s : State) : Host.Outcome State Fault Refusal :=
  .next (s.writePk .empty)

/-- PK.PUSH (R61): mask the datum to a code, shift it in, emit every whole word. -/
def execPkPush (d : Operand) (s : State) : Host.Outcome State Fault Refusal :=
  let out := packStep Config.S Config.W s.pk.residue d.toNat
  .next ((s.writePk out.2).emitPk out.1)

/-- PK.FLUSH (R62): emit the residue, if any, as a last word; both registers zero; `OPD` ignored. -/
def execPkFlush (_opd : Operand) (s : State) : Host.Outcome State Fault Refusal :=
  .next ((s.emitPk (packFinish Config.W s.pk.residue)).writePk .empty)

end Sys2Proof.Machine
end

