-- ==== Sys2Proof/Machine/Flags.lean ====
section
/-! DEFINITION. The block has no flags and no condition codes (spec/10_state.md R22). Its one condition is a predicate
over two registers, read by UP.PUSH only. -/

namespace Sys2Proof.Machine

/-- Done: `UP.EMITTED = UP.COUNT` (R22, R72). -/
def Unpacker.done (u : Unpacker) : Bool :=
  decide (u.emitted = u.count)

end Sys2Proof.Machine
end

