-- ==== Sys2Proof/Machine/UnpackerUnit.lean ====
section
/-! DEFINITION. The unpacker's commands (spec/41_unpacker.md). -/

namespace Sys2Proof.Machine

/-- UP.START (R70): the unit emptied, the count loaded. -/
def execUpStart (n : Operand) (s : State) : Host.Outcome State Fault Refusal :=
  .next (((s.writeUp .empty).writeEmitted 0#16).writeCount n)

/-- UP.PUSH (R71): nothing when done (R72); otherwise shift the word in and emit whole codes, at most as many as are
still to come. -/
def execUpPush (w : Operand) (s : State) : Host.Outcome State Fault Refusal :=
  if s.up.done then .next s
  else
    let remaining := s.up.count.toNat - s.up.emitted.toNat
    let out := unpackStep Config.S Config.W remaining s.up.residue w.toNat
    .next (((s.writeUp out.2).writeEmitted (BitVec.ofNat 16 (s.up.emitted.toNat + out.1.length))).emitUp out.1)

end Sys2Proof.Machine
end

