-- ==== Sys2Proof/Machine/Dispatch.lean ====
section
/-! DEFINITION. One arm per command (spec/30_encoding.md R52). -/

namespace Sys2Proof.Machine

def exec (i : Instr) (s : State) : Host.Outcome State Fault Refusal :=
  match i with
  | .pkStart opd => Sys2Proof.Machine.execPkStart opd s
  | .pkPush d => Sys2Proof.Machine.execPkPush d s
  | .pkFlush opd => Sys2Proof.Machine.execPkFlush opd s
  | .upStart n => Sys2Proof.Machine.execUpStart n s
  | .upPush w => Sys2Proof.Machine.execUpPush w s
  | .dcStart opd => Sys2Proof.Machine.execDcStart opd s
  | .dcPush d => Sys2Proof.Machine.execDcPush d s

end Sys2Proof.Machine
end

