-- ==== Sys2Proof/Machine/Step.lean ====
section
/-! DEFINITION. One step: one host input, taken whole (spec/20_memory.md R40, spec/00_scope.md R5). -/

namespace Sys2Proof.Machine

/-- Take the next host input and execute it: a command word is decoded and run, a reserved word is a no-operation (R54),
RESET is applied between commands (R130); with nothing pending the block waits. -/
def step (s : State) : Host.Outcome State Fault Refusal :=
  match takeInput s with
  | none => execIdle s
  | some (.reset, s') => .next (applyReset s')
  | some (.command w, s') =>
    match decode w with
    | .ok i => exec i s'
    | .error r => execReserved r s'

/-- The state with the command word the opcode table numbers `w` as the next host input: the block has no program
counter and fetches nothing (R21), its next command is the next one the host issued (log 1, log 14). -/
def State.withFetchWord (s : State) (nbits w : Nat) : State :=
  { s with pending := .command (tableWord nbits w) :: s.pending }

end Sys2Proof.Machine
end

