-- ==== Sys2Proof/Machine/Streams.lean ====
section
/-! DEFINITION. The bit order of the packed stream (spec/20_memory.md R35, R36) and its numeral form
(spec/43_composite.md R92): what the statements about whole sequences are written in. Nothing here is used by a step. -/

namespace Sys2Proof.Machine

/-- The low `n` bits of `v`, most significant first (R8 "MSB-first"). -/
def msbBits : (n : Nat) → (v : Nat) → List Bool
  | 0, _ => []
  | n + 1, v => v.testBit n :: msbBits n v

/-- The bit stream of a list of `n`-bit values: each contributes its bits MSB first, values in order (R35, R36). -/
def streamBits (n : Nat) (vs : List Nat) : List Bool :=
  vs.flatMap (msbBits n)

/-- The stream bits of symbol codes (R35). -/
def codeStream (cs : List Code) : List Bool :=
  streamBits 5 (cs.map BitVec.toNat)

/-- The stream bits of packed words (R36). -/
def wordStream (ws : List PackedWord) : List Bool :=
  streamBits 16 (ws.map BitVec.toNat)

/-- The values as digits of a base-`2^n` numeral, the first most significant (R92). -/
def numeral (n : Nat) (vs : List Nat) : Nat :=
  vs.foldl (fun acc v => acc * 2 ^ n + v) 0

/-- `ceil(a / b)` (R8). -/
def ceilDiv (a b : Nat) : Nat :=
  (a + b - 1) / b

end Sys2Proof.Machine
end

