-- ==== Sys2Proof/Machine/Composite.lean ====
section
/-! DEFINITION. The pseudo-instructions (spec/30_encoding.md R57), the execution of a command sequence, and the three
whole-sequence functions on unbounded naturals, for every pair of widths (spec/43_composite.md R90, R96, R102,
spec/00_scope.md R7). Nothing here is used by a step. -/

namespace Sys2Proof.Machine

/-- `PACK c0, ..., c(n-1)`: its command sequence (R57, R90). -/
def packCommands (codes : List Operand) : List Instr :=
  .pkStart 0#16 :: (codes.map Instr.pkPush ++ [.pkFlush 0#16])

/-- `UNPACK n, w0, ..., w(m-1)`: its command sequence (R57, R96). -/
def unpackCommands (n : Operand) (words : List PackedWord) : List Instr :=
  .upStart n :: words.map Instr.upPush

/-- `DECODE c0, ..., c(n-1)`: its command sequence (R57, R102). -/
def decodeCommands (codes : List Operand) : List Instr :=
  .dcStart 0#16 :: codes.map Instr.dcPush

/-- Execute commands one after another, each completely before the next (R40). -/
def execAll : List Instr → State → Host.Outcome State Fault Refusal
  | [], s => .next s
  | i :: is, s =>
    match exec i s with
    | .next t => execAll is t
    | .fault f => .fault f
    | .refused r => .refused r

/-- The host input that issues a command (R51, R120). -/
def HostInput.ofInstr (i : Instr) : HostInput :=
  .command (encode i)

/-- A symbol code presented as a datum (R53). -/
def operandOfCode (c : Code) : Operand :=
  c.setWidth 16

/-- The packer from a residue on: one step per code, then the termination step (R90). -/
def packFrom (S W : Nat) : Residue → List Nat → List Nat
  | r, [] => packFinish W r
  | r, c :: cs => (packStep S W r c).1 ++ packFrom S W (packStep S W r c).2 cs

/-- `pack(codes, S, W)` (R90). -/
def packWith (S W : Nat) (codes : List Nat) : List Nat :=
  packFrom S W .empty codes

/-- The unpacker from a residue on, with `remaining` codes to come: one step per word; words are discarded when none
is to come (R72, R96). -/
def unpackFrom (S W : Nat) : (remaining : Nat) → Residue → List Nat → List Nat
  | _, _, [] => []
  | remaining, r, w :: ws =>
    if remaining = 0 then unpackFrom S W remaining r ws
    else
      (unpackStep S W remaining r w).1 ++
        unpackFrom S W (remaining - (unpackStep S W remaining r w).1.length) (unpackStep S W remaining r w).2 ws

/-- `unpack(words, count, S, W)` (R96). -/
def unpackWith (S W count : Nat) (words : List Nat) : List Nat :=
  unpackFrom S W count .empty words

/-- The decoder's rule per code as DOC00 §4.3 words it, on a raw entry: from state `st`, the fragments the codes emit,
concatenated in input order (R86, R102). -/
def decodeFrom (rom : TableRom) : BitVec 1 → List Code → List Character
  | _, [] => []
  | st, c :: cs =>
    let e := tableRead rom (tableAddress st c)
    if e.getLsbD 9 then
      if e.getLsbD 8 then decodeFrom rom st cs
      else decodeFrom rom (BitVec.ofBool (e.getLsbD 0)) cs
    else
      if e.getLsbD 8 then entryPayload e :: decodeFrom rom st cs
      else Config.QMARK :: decodeFrom rom st cs

/-- `decode(codes, tables)`: every call starts in LETTERS (R88, R102). -/
def decodeText (rom : TableRom) (codes : List Code) : List Character :=
  decodeFrom rom Config.LETTERS codes

end Sys2Proof.Machine
end

