-- ==== Sys2Proof/Machine/Assembler.lean ====
section
/-! DEFINITION. The assembler syntax of spec/30_encoding.md R56 and the pseudo-instructions of R57, from text to host
inputs. Nothing here is used by a step. What the syntax leaves open (blanks, hexadecimal letter case, how a
negative operand is written, what a malformed line does) is fixed in log 12. -/

namespace Sys2Proof.Machine

/-- Why a line is no line of the syntax. -/
inductive AsmReject where
  /-- the first word is no mnemonic of R52 or R57 and is not `RESET` -/
  | unknownMnemonic
  /-- the operands are not numbers, or not as many as the mnemonic takes -/
  | badOperands
deriving DecidableEq, Repr

/-- Blanks separate words (log 12). -/
def isBlank (c : Char) : Bool :=
  c = ' ' || c = '\t'

/-- What stands before the comment, which a `;` starts (R56). -/
def stripComment (line : List Char) : List Char :=
  line.takeWhile (· ≠ ';')

/-- Put a finished word before the others, unless it is empty. -/
def pushWord (word : List Char) (rest : List (List Char)) : List (List Char) :=
  if word.isEmpty then rest else word :: rest

/-- The words of a line; a comma is a word of its own. -/
def splitWords (line : List Char) : List (List Char) :=
  let out := line.foldr (init := ([], []))
    fun (c : Char) (acc : List Char × List (List Char)) =>
      if isBlank c then ([], pushWord acc.1 acc.2)
      else if c = ',' then ([], [','] :: pushWord acc.1 acc.2)
      else (c :: acc.1, acc.2)
  pushWord out.1 out.2

/-- The digits of the number forms of R56, in the order of their values; a base uses the first `base` of them. -/
def digitSymbols : List Char :=
  "0123456789ABCDEF".toList

/-- The value of one digit in a base: its place among the base's digits, a letter in either case (log 12). -/
def digitValue (base : Nat) (c : Char) : Option Nat :=
  (digitSymbols.take base).findIdx? (· = c.toUpper)

/-- The value of digits in a base, at least one of them. -/
def digitsValue (base : Nat) (ds : List Char) : Option Nat :=
  if ds.isEmpty then none
  else (ds.mapM (digitValue base)).map (List.foldl (fun v d => v * base + d) 0)

/-- A number: decimal, `0x` hexadecimal or `0b` binary (R56). -/
def parseNumber : List Char → Option Nat
  | '0' :: 'x' :: ds => digitsValue 16 ds
  | '0' :: 'b' :: ds => digitsValue 2 ds
  | ds => digitsValue 10 ds

/-- An integer: a number, or a `-` and a number for its negative. R56 and R53 give a negative operand its value and no
way to write it: the sign is DESIGN CHOICE, safe (log 12). -/
def parseInteger : List Char → Option Int
  | '-' :: ds => (parseNumber ds).map fun n => -(n : Int)
  | ds => (parseNumber ds).map Int.ofNat

/-- An operand: an integer reduced modulo 65536, a negative one in two's complement (R53, R56). -/
def parseOperand (word : List Char) : Option Operand :=
  (parseInteger word).map presentInt

/-- What follows an operand of a list: a comma and the next operand, and so on (R57). -/
def parseOperandTail : List (List Char) → Option (List Operand)
  | [] => some []
  | sep :: word :: rest =>
    if sep = [','] then
      match parseOperand word, parseOperandTail rest with
      | some d, some ds => some (d :: ds)
      | _, _ => none
    else none
  | [_] => none

/-- A list of operands separated by commas, possibly empty (R57). -/
def parseOperandList : List (List Char) → Option (List Operand)
  | [] => some []
  | word :: rest =>
    match parseOperand word, parseOperandTail rest with
    | some d, some ds => some (d :: ds)
    | _, _ => none

/-- The inputs of a command sequence. -/
def inputsOf (is : List Instr) : List HostInput :=
  is.map HostInput.ofInstr

/-- A mnemonic and its operands (R56, R57). Operand-less commands assemble with a zero operand field. -/
def assembleWords (mnemonic : List Char) (operands : List (List Char)) : Except AsmReject (List HostInput) :=
  match parseOperandList operands with
  | none => .error .badOperands
  | some ds =>
    if mnemonic = "RESET".toList then
      match ds with
      | [] => .ok [.reset]
      | _ => .error .badOperands
    else if mnemonic = "PK.START".toList then
      match ds with
      | [] => .ok (inputsOf [.pkStart 0#16])
      | _ => .error .badOperands
    else if mnemonic = "PK.PUSH".toList then
      match ds with
      | [d] => .ok (inputsOf [.pkPush d])
      | _ => .error .badOperands
    else if mnemonic = "PK.FLUSH".toList then
      match ds with
      | [] => .ok (inputsOf [.pkFlush 0#16])
      | _ => .error .badOperands
    else if mnemonic = "UP.START".toList then
      match ds with
      | [n] => .ok (inputsOf [.upStart n])
      | _ => .error .badOperands
    else if mnemonic = "UP.PUSH".toList then
      match ds with
      | [w] => .ok (inputsOf [.upPush w])
      | _ => .error .badOperands
    else if mnemonic = "DC.START".toList then
      match ds with
      | [] => .ok (inputsOf [.dcStart 0#16])
      | _ => .error .badOperands
    else if mnemonic = "DC.PUSH".toList then
      match ds with
      | [d] => .ok (inputsOf [.dcPush d])
      | _ => .error .badOperands
    else if mnemonic = "PACK".toList then .ok (inputsOf (packCommands ds))
    else if mnemonic = "UNPACK".toList then
      match ds with
      | n :: ws => .ok (inputsOf (unpackCommands n ws))
      | [] => .error .badOperands
    else if mnemonic = "DECODE".toList then .ok (inputsOf (decodeCommands ds))
    else .error .unknownMnemonic

/-- One line: nothing for an empty line or a comment, else a mnemonic and its operands (R56). -/
def assembleLine (line : List Char) : Except AsmReject (List HostInput) :=
  match splitWords (stripComment line) with
  | [] => .ok []
  | mnemonic :: operands => assembleWords mnemonic operands

/-- A program text, one command per line (R56): the host inputs in order, or the first line's rejection. -/
def assemble : List (List Char) → Except AsmReject (List HostInput)
  | [] => .ok []
  | line :: lines =>
    match assembleLine line, assemble lines with
    | .ok inputs, .ok rest => .ok (inputs ++ rest)
    | .error r, _ => .error r
    | .ok _, .error r => .error r

end Sys2Proof.Machine
end

