-- ==== Sys2Proof/Machine/HostLink.lean ====
section
/-! DEFINITION. The one thing spec/20_memory.md R37 says of words outside the block: a host that lays `PK_OUT` into
bytes uses one byte order for storing and loading. Nothing here is used by a step (log 10). -/

namespace Sys2Proof.Machine

/-- The two bytes of a packed word in a byte order (R37). -/
def wordToBytes (order : ByteOrder) (w : PackedWord) : List (BitVec 8) :=
  match order with
  | .big => [w.extractLsb' 8 8, w.extractLsb' 0 8]
  | .little => [w.extractLsb' 0 8, w.extractLsb' 8 8]

/-- The words of a byte sequence in a byte order (R37). -/
def bytesToWords (order : ByteOrder) : List (BitVec 8) → List PackedWord
  | a :: b :: rest =>
    (match order with
     | .big => a ++ b
     | .little => b ++ a) :: bytesToWords order rest
  | _ => []

/-- A word sequence as a host with `HOST_BYTE_ORDER` stores it (R37). -/
def storeWords (ws : List PackedWord) : List (BitVec 8) :=
  ws.flatMap (wordToBytes Config.hostByteOrder)

/-- The word sequence such a host loads again (R37). -/
def loadWords (bytes : List (BitVec 8)) : List PackedWord :=
  bytesToWords Config.hostByteOrder bytes

end Sys2Proof.Machine
end

