-- ==== Sys2Proof/Safety.lean ====
section
/-! DEFINITION. What is always true of the registers between commands (spec/10_state.md R13, R18), and what a safe run
is: every step answers a next state (spec/60_exceptions.md R110). -/

namespace Sys2Proof.Machine

/-- The packer invariant (R13). -/
abbrev Packer.Inv (p : Packer) : Prop :=
  p.held.toNat ≤ 15 ∧ p.acc.toNat < 2 ^ p.held.toNat

/-- The unpacker invariant (R18). -/
abbrev Unpacker.Inv (u : Unpacker) : Prop :=
  u.emitted.toNat ≤ u.count.toNat ∧ u.acc.toNat < 2 ^ u.held.toNat ∧
    (u.emitted.toNat < u.count.toNat → u.held.toNat ≤ 4) ∧ (u.emitted = u.count → u.held.toNat ≤ 15)

/-- The invariant of the machine: both units' invariants; the decoder's one bit and the ROM allow every value. -/
abbrev State.Inv (s : State) : Prop :=
  s.pk.Inv ∧ s.up.Inv

/-- The outcome is a next state: the machine goes on (R110). -/
def Completes (o : Host.Outcome State Fault Refusal) : Prop :=
  ∃ t, o = .next t

end Sys2Proof.Machine
end

