-- ==== Sys2Proof/Certificates/Slice0/Obligations.lean ====
section
/-! DEFINITION. The statements for the provers, from the numbered rules of spec/. A statement that gives the whole next
state as an equation is also its command's frame (every field it does not name is unchanged) and its completion. -/

open Sys2Proof Sys2Proof.Machine

/- Encoding. -/

/-- R51 to R53: a word decodes to a command exactly when it is that command's encoding, so every command, with every
operand, has one word and every word at most one command; no bit of an operand is dropped. -/
def Obligations.DecodeInvertsEncode : Prop :=
  ∀ (w : CommandWord) (i : Instr), decode w = .ok i ↔ encode i = w

/-- R52: a word decodes to the command of the one row of the opcode table whose masked bits it has; the rows do not
overlap; the high nibble of `OPC` names the unit and the low nibble the operation; the other 249 values of `OPC`, in the
ranges the rule gives, are rejected by name. -/
def Obligations.DecodeFollowsTheOpcodeMap : Prop :=
  (∀ (w : CommandWord) (i : Instr), decode w = .ok i ↔
    ∃ row ∈ opcodeTable, w &&& row.mask = row.pattern ∧ i = row.command (w.extractLsb' 0 16)) ∧
  (opcodeTable.Pairwise fun a b => ∀ w : CommandWord, ¬(w &&& a.mask = a.pattern ∧ w &&& b.mask = b.pattern)) ∧
  (∀ i : Instr, ((encode i).extractLsb' 20 4).toNat =
    match i.unit with
    | .pk => 1
    | .up => 2
    | .dc => 3) ∧
  (∀ i : Instr, ((encode i).extractLsb' 16 4).toNat =
    match i with
    | .pkStart _ | .upStart _ | .dcStart _ => 0
    | .pkPush _ | .upPush _ | .dcPush _ => 1
    | .pkFlush _ => 2) ∧
  ((List.range 256).filter fun n => !definedOpc (BitVec.ofNat 8 n)).length = 249 ∧
  (∀ w : CommandWord, decode w = .error (.reservedOpc (w.extractLsb' 16 8)) ↔
    (w.extractLsb' 16 8).toNat ≤ 0x0F ∨
    (0x13 ≤ (w.extractLsb' 16 8).toNat ∧ (w.extractLsb' 16 8).toNat ≤ 0x1F) ∨
    (0x22 ≤ (w.extractLsb' 16 8).toNat ∧ (w.extractLsb' 16 8).toNat ≤ 0x2F) ∨
    0x32 ≤ (w.extractLsb' 16 8).toNat)

/-- R52, R56: words of the rule's table and of the assembler examples, one per command, written out. -/
def Obligations.WrittenOutWordsDecode : Prop :=
  decode 0x100000#24 = .ok (.pkStart 0#16) ∧ decode 0x11002D#24 = .ok (.pkPush 45#16) ∧
  decode 0x120000#24 = .ok (.pkFlush 0#16) ∧ decode 0x200009#24 = .ok (.upStart 9#16) ∧
  decode 0x21804B#24 = .ok (.upPush 0x804B#16) ∧ decode 0x300000#24 = .ok (.dcStart 0#16) ∧
  decode 0x31001B#24 = .ok (.dcPush 27#16)

/-- R53, R54: PK.PUSH and DC.PUSH use the low 5 bits of the datum only; PK.START, PK.FLUSH and DC.START ignore the
operand; UP.START takes all 16 bits; an integer a host presents keeps its value modulo 32 as the code. -/
def Obligations.OperandBitsUsed : Prop :=
  (∀ (d d' : Operand) (s : State), d.extractLsb' 0 5 = d'.extractLsb' 0 5 →
    exec (.pkPush d) s = exec (.pkPush d') s ∧ exec (.dcPush d) s = exec (.dcPush d') s) ∧
  (∀ (a b : Operand) (s : State), exec (.pkStart a) s = exec (.pkStart b) s ∧
    exec (.pkFlush a) s = exec (.pkFlush b) s ∧ exec (.dcStart a) s = exec (.dcStart b) s) ∧
  (∀ (n : Operand) (s : State), ∃ t, exec (.upStart n) s = .next t ∧ t.up.count = n) ∧
  (∀ c : Int, ((presentInt c).extractLsb' 0 5).toNat = (c % 32).toNat)

/-- R31: the entry address of a state and a code is `32 * st + c`, and a table read gives the entry at that place. -/
def Obligations.TableAddressing : Prop :=
  ∀ (rom : TableRom) (st : BitVec 1) (c : Code),
    (tableAddress st c).toNat = 32 * st.toNat + c.toNat ∧
    rom[32 * st.toNat + c.toNat]? = some (tableRead rom (tableAddress st c))

/-- R48: the four kinds of entry; the payload bits a kind does not use are ignored. -/
def Obligations.EntryFormat : Prop :=
  ∀ (p : BitVec 8), entryOf (0b00#2 ++ p) = .absent ∧ entryOf (0b01#2 ++ p) = .char p ∧
    entryOf (0b10#2 ++ p) = .shift (BitVec.ofBool (p.getLsbD 0)) ∧ entryOf (0b11#2 ++ p) = .null

/- The step. -/

/-- R40: when the next host input is a command word, the step is the meaning of the command it decodes to, on the state
with that input taken; and so it is for a word placed by `withFetchWord`. The queue of host inputs and the placing of a
word in it are the model's choice (log 1, log 14). -/
def Obligations.StepRunsTheDecodedCommand : Prop :=
  (∀ (s : State) (w : CommandWord) (rest : List HostInput) (i : Instr),
    s.pending = .command w :: rest → decode w = .ok i → step s = exec i { s with pending := rest }) ∧
  (∀ (s : State) (nbits w : Nat) (i : Instr),
    decodeTableWord nbits w = some i → step (s.withFetchWord nbits w) = exec i s)

/-- R54, R112 by the spec's own decision D10, which its U1 advises not to rely on (log 3, the model's choice between
the two): a reserved word is taken and changes nothing. -/
def Obligations.ReservedWordIsNoOperation : Prop :=
  ∀ (s : State) (w : CommandWord) (rest : List HostInput),
    s.pending = .command w :: rest → wordWellFormed w = false → step s = .next { s with pending := rest }

/-- The model's inference (log 2): with nothing pending, a step changes nothing. -/
def Obligations.NothingPendingIdles : Prop :=
  ∀ s : State, s.pending = [] → step s = .next s

/-- R130, R131: the RESET event writes zero to all seven registers and leaves the streams and the ROM; the registers are
then as PK.START, `UP.START 0` and DC.START leave them. The queue, of which RESET takes its own input and leaves the
rest, is the model's choice (log 1). -/
def Obligations.ResetEventWritesEveryRegister : Prop :=
  ∀ (s : State) (rest : List HostInput), s.pending = .reset :: rest →
    step s = .next { s with pk := ⟨0#20, 0#5⟩, up := ⟨0#20, 0#5, 0#16, 0#16⟩, dc := ⟨0#1⟩, pending := rest } ∧
    step s = execAll [.pkStart 0#16, .upStart 0#16, .dcStart 0#16] { s with pending := rest }

/-- R29: after RESET every register is zero, in the model's reset state and after the RESET event alike. -/
def Obligations.ResetValuesAreZero : Prop :=
  State.reset.pk = ⟨0#20, 0#5⟩ ∧ State.reset.up = ⟨0#20, 0#5, 0#16, 0#16⟩ ∧ State.reset.dc = ⟨0#1⟩ ∧
  ∀ s : State, (applyReset s).pk = State.reset.pk ∧ (applyReset s).up = State.reset.up ∧
    (applyReset s).dc = State.reset.dc

/-- R40: host inputs that are commands run in the order issued, each completely before the next. The queue that holds them
is the model's choice (log 1). -/
def Obligations.PendingCommandsRunInOrder : Prop :=
  ∀ (is : List Instr) (rest : List HostInput) (s : State), s.pending = is.map HostInput.ofInstr ++ rest →
    Host.Core.run Sys2Proof.core is.length s = execAll is { s with pending := rest }

/-- R110: every command, with every operand, in every state, answers a next state. -/
def Obligations.EveryCommandCompletes : Prop :=
  ∀ (i : Instr) (s : State), Completes (exec i s)

/-- Every step answers a next state: a command (R110), RESET (R130), and by the model's choice a reserved word (log 3) and
an empty host queue (log 2). -/
def Obligations.EveryStepCompletes : Prop :=
  ∀ s : State, Completes (step s)

/- Invariants. -/

/-- R13, R18: whatever the host sends, a step keeps the packer invariant and the unpacker invariant. -/
def Obligations.StepKeepsTheInvariants : Prop :=
  ∀ s t : State, s.Inv → step s = .next t → t.Inv

/-- R13, R18: the invariants hold after RESET. -/
def Obligations.ResetMeetsTheInvariants : Prop :=
  State.reset.Inv ∧ ∀ s : State, (applyReset s).Inv

/-- R27, R32, R44: no step, a command or RESET, changes an entry of the table ROM. -/
def Obligations.TableRomIsNeverWritten : Prop :=
  ∀ s t : State, step s = .next t →
    t.tables = s.tables ∧ ∀ a : TableAddress, tableRead t.tables a = tableRead s.tables a

/-- R26: whatever the step, RESET and the START commands included, values are only appended to the streams. -/
def Obligations.StreamsOnlyGrow : Prop :=
  ∀ s t : State, step s = .next t →
    ∃ (ws : List PackedWord) (cs : List Code) (xs : List Character),
      t.pkOut = s.pkOut ++ ws ∧ t.upOut = s.upOut ++ cs ∧ t.dcOut = s.dcOut ++ xs

/- The packer. -/

/-- R60: PK.START zeroes both packer registers, emits nothing, changes nothing else. -/
def Obligations.PkStartEmptiesThePacker : Prop :=
  ∀ (opd : Operand) (s : State), exec (.pkStart opd) s = .next { s with pk := ⟨0#20, 0#5⟩ }

/-- R61: PK.PUSH from a packer that meets R13, in closed form: with fewer than 11 bits held the code is appended;
otherwise the top 16 of the bits go out as one word and the rest stay. -/
def Obligations.PkPushAppendsACode : Prop :=
  ∀ (d : Operand) (s : State), s.pk.Inv →
    exec (.pkPush d) s = .next (
      let h := s.pk.held.toNat
      let x := s.pk.acc.toNat * 32 + d.toNat % 32
      if h < 11 then { s with pk := ⟨BitVec.ofNat 20 x, BitVec.ofNat 5 (h + 5)⟩ }
      else { s with pk := ⟨BitVec.ofNat 20 (x % 2 ^ (h - 11)), BitVec.ofNat 5 (h - 11)⟩,
                    pkOut := s.pkOut ++ [BitVec.ofNat 16 (x / 2 ^ (h - 11))] })

/-- R62: PK.FLUSH from a packer that meets R13 emits nothing when nothing is held, else the residue left-justified in
one word with zero pad bits, and empties the unit; a second PK.FLUSH changes nothing. -/
def Obligations.PkFlushEmitsTheResidue : Prop :=
  ∀ (opd : Operand) (s : State), s.pk.Inv →
    exec (.pkFlush opd) s = .next { s with
      pk := ⟨0#20, 0#5⟩,
      pkOut := s.pkOut ++
        if s.pk.held = 0#5 then [] else [BitVec.ofNat 16 (s.pk.acc.toNat * 2 ^ (16 - s.pk.held.toNat))] } ∧
    execAll [.pkFlush opd, .pkFlush opd] s = exec (.pkFlush opd) s

/-- R64: the number of words a push emits and the count it leaves; the totals over an invocation from an empty unit, and
the one word PK.FLUSH adds when the remainder is not zero. -/
def Obligations.WordsPerPush : Prop :=
  (∀ (d : Operand) (s : State), s.pk.Inv → ∃ t, exec (.pkPush d) s = .next t ∧
    t.pkOut.length = s.pkOut.length + (s.pk.held.toNat + 5) / 16 ∧ t.pk.held.toNat = (s.pk.held.toNat + 5) % 16) ∧
  (∀ (codes : List Operand) (opd : Operand) (s : State), s.pk = ⟨0#20, 0#5⟩ →
    ∃ t u, execAll (codes.map Instr.pkPush) s = .next t ∧ exec (.pkFlush opd) t = .next u ∧
      t.pkOut.length = s.pkOut.length + codes.length * 5 / 16 ∧ t.pk.held.toNat = codes.length * 5 % 16 ∧
      u.pkOut.length = t.pkOut.length + if codes.length * 5 % 16 = 0 then 0 else 1)

/- The unpacker. -/

/-- R70: UP.START loads the count, zeroes the other unpacker registers, emits nothing, changes nothing else. -/
def Obligations.UpStartLoadsTheCount : Prop :=
  ∀ (n : Operand) (s : State), exec (.upStart n) s = .next { s with up := ⟨0#20, 0#5, n, 0#16⟩ }

/-- R71, R75: UP.PUSH from an unpacker that meets R18 and is not done, in closed form: the `k` codes it emits are the
leading 5-bit groups of the held bits followed by the word, and the bits after them stay. -/
def Obligations.UpPushExtractsCodes : Prop :=
  ∀ (w : Operand) (s : State), s.up.Inv →
    exec (.upPush w) s = .next (
      let h := s.up.held.toNat
      let x := s.up.acc.toNat * 65536 + w.toNat
      let k := min ((h + 16) / 5) (s.up.count.toNat - s.up.emitted.toNat)
      if s.up.emitted = s.up.count then s
      else { s with
        up := ⟨BitVec.ofNat 20 (x % 2 ^ (h + 16 - 5 * k)), BitVec.ofNat 5 (h + 16 - 5 * k), s.up.count,
               BitVec.ofNat 16 (s.up.emitted.toNat + k)⟩,
        upOut := s.upOut ++ (List.range k).map fun j => BitVec.ofNat 5 (x / 2 ^ (h + 16 - 5 * (j + 1))) })

/-- R72: a word pushed when the unpacker is done is discarded: no register changes, nothing is emitted. -/
def Obligations.UpPushWhenDoneIsDiscarded : Prop :=
  ∀ (w : Operand) (s : State), s.up.emitted = s.up.count → exec (.upPush w) s = .next s

/-- R135: after RESET, with no UP.START, every word pushed is discarded. -/
def Obligations.UnpackerNeedsAStart : Prop :=
  ∀ (words : List PackedWord) (s : State), s.up = State.reset.up → execAll (words.map Instr.upPush) s = .next s

/- The decoder. -/

/-- R80: DC.START sets LETTERS, emits nothing, changes nothing else. -/
def Obligations.DcStartSetsLetters : Prop :=
  ∀ (opd : Operand) (s : State), exec (.dcStart opd) s = .next { s with dc := ⟨0#1⟩ }

/-- R81 to R86: DC.PUSH reads the entry at `32 * DC.SHIFT + (d mod 32)`; ABSENT emits 0x3F, CHAR emits the payload,
SHIFT writes payload bit 0 to the state, NULL does nothing; nothing else changes. -/
def Obligations.DcPushFollowsTheEntry : Prop :=
  ∀ (d : Operand) (s : State), ∃ e : EntryBits,
    s.tables[32 * s.dc.shift.toNat + d.toNat % 32]? = some e ∧
    (e.extractLsb' 8 2 = 0b00#2 → exec (.dcPush d) s = .next { s with dcOut := s.dcOut ++ [0x3F#8] }) ∧
    (e.extractLsb' 8 2 = 0b01#2 → exec (.dcPush d) s = .next { s with dcOut := s.dcOut ++ [e.extractLsb' 0 8] }) ∧
    (e.extractLsb' 8 2 = 0b10#2 → exec (.dcPush d) s = .next { s with dc := ⟨e.extractLsb' 0 1⟩ }) ∧
    (e.extractLsb' 8 2 = 0b11#2 → exec (.dcPush d) s = .next s)

/-- R19, R80, R82, R130: a command changes `DC.SHIFT` only if it is DC.START, or a DC.PUSH of a code whose entry is a
SHIFT entry naming the new state, and then it emits nothing; a step changes it only by taking such a command or RESET,
which writes LETTERS and emits nothing too. The queue a step takes its input from is the model's choice (log 1). -/
def Obligations.OnlyStartsShiftEntriesAndResetChangeTheState : Prop :=
  (∀ (i : Instr) (s t : State), exec i s = .next t → t.dc.shift ≠ s.dc.shift →
    t.dcOut = s.dcOut ∧
    ((∃ opd, i = .dcStart opd ∧ t.dc.shift = 0#1) ∨
     ∃ d e, i = .dcPush d ∧ s.tables[32 * s.dc.shift.toNat + d.toNat % 32]? = some e ∧
       e.extractLsb' 8 2 = 0b10#2 ∧ t.dc.shift = e.extractLsb' 0 1)) ∧
  (∀ s t : State, step s = .next t → t.dc.shift ≠ s.dc.shift →
    t.dcOut = s.dcOut ∧ ∃ input rest, s.pending = input :: rest ∧
      ((input = .reset ∧ t.dc.shift = 0#1) ∨
       ∃ w, input = .command w ∧
        ((∃ opd, decode w = .ok (.dcStart opd) ∧ t.dc.shift = 0#1) ∨
         ∃ d e, decode w = .ok (.dcPush d) ∧ s.tables[32 * s.dc.shift.toNat + d.toNat % 32]? = some e ∧
           e.extractLsb' 8 2 = 0b10#2 ∧ t.dc.shift = e.extractLsb' 0 1)))

/- The units together. -/

/-- R10, R26, R27, R41: a command leaves the registers and the stream of every unit but its own as they were, and the
table ROM too. The host's queue, which it leaves as well, is the model's choice (log 1). -/
def Obligations.CommandsLeaveOtherUnitsAlone : Prop :=
  ∀ (i : Instr) (s t : State), exec i s = .next t →
    (i.unit ≠ .pk → t.pk = s.pk ∧ t.pkOut = s.pkOut) ∧
    (i.unit ≠ .up → t.up = s.up ∧ t.upOut = s.upOut) ∧
    (i.unit ≠ .dc → t.dc = s.dc ∧ t.dcOut = s.dcOut) ∧
    t.tables = s.tables ∧ t.pending = s.pending ∧
    ∀ a : TableAddress, tableRead t.tables a = tableRead s.tables a

/-- R41: commands of different units commute: either order gives the same state and the same three streams. -/
def Obligations.UnitsCommute : Prop :=
  ∀ (i j : Instr) (s : State), i.unit ≠ j.unit → execAll [i, j] s = execAll [j, i] s

/-- R105: in any interleaving, each unit ends with the registers and the stream it has when only its own commands of
the sequence are executed. -/
def Obligations.InterleavingChangesNoUnit : Prop :=
  ∀ (is : List Instr) (s : State), ∃ t a b c,
    execAll is s = .next t ∧
    execAll (is.filter fun i => i.unit = .pk) s = .next a ∧
    execAll (is.filter fun i => i.unit = .up) s = .next b ∧
    execAll (is.filter fun i => i.unit = .dc) s = .next c ∧
    t.pk = a.pk ∧ t.pkOut = a.pkOut ∧ t.up = b.up ∧ t.upOut = b.upOut ∧ t.dc = c.dc ∧ t.dcOut = c.dcOut

/-- R106: bounds on what one command emits, in states that meet the invariants. -/
def Obligations.OutputsPerCommandAreBounded : Prop :=
  ∀ (i : Instr) (s : State), s.Inv → ∃ t, exec i s = .next t ∧
    t.pkOut.length ≤ s.pkOut.length + 1 ∧ t.upOut.length ≤ s.upOut.length + 4 ∧ t.dcOut.length ≤ s.dcOut.length + 1

/- Whole sequences. -/

/-- R90 to R93, R95: a PACK, from any state, empties the packer and appends `ceil(5n / 16)` words whose bits are the
codes' bits, MSB first, in order, followed by fewer than 16 zero bits; nothing else changes. -/
def Obligations.PackLaysCodesOutMsbFirst : Prop :=
  ∀ (codes : List Operand) (s : State), ∃ ws : List PackedWord,
    execAll (packCommands codes) s = .next { s with pk := ⟨0#20, 0#5⟩, pkOut := s.pkOut ++ ws } ∧
    ws.length = ceilDiv (codes.length * 5) 16 ∧
    wordStream ws = codeStream (codes.map symbolOf) ++ List.replicate (ws.length * 16 - codes.length * 5) false ∧
    ws.length * 16 - codes.length * 5 ≤ 15

/-- R35: bit `15 - t` of word `i` of a PACK is bit `4 - j` of code `k`, where `5k + j = 16i + t`, and zero past the end
of the stream. -/
def Obligations.PackedBitPositions : Prop :=
  ∀ (codes : List Operand) (s : State), ∃ ws : List PackedWord,
    execAll (packCommands codes) s = .next { s with pk := ⟨0#20, 0#5⟩, pkOut := s.pkOut ++ ws } ∧
    ∀ (i t : Nat) (w : PackedWord), ws[i]? = some w → t < 16 →
      (∀ (k j : Nat) (d : Operand), 5 * k + j = 16 * i + t → j < 5 → codes[k]? = some d →
        w.getLsbD (15 - t) = d.getLsbD (4 - j)) ∧
      (codes.length * 5 ≤ 16 * i + t → w.getLsbD (15 - t) = false)

/-- R92: the numeral form: the codes as base-32 digits, shifted past the pad bits, are the words as base-65536 digits. -/
def Obligations.PackAsOneNumber : Prop :=
  ∀ (codes : List Operand) (s : State), ∃ ws : List PackedWord,
    execAll (packCommands codes) s = .next { s with pk := ⟨0#20, 0#5⟩, pkOut := s.pkOut ++ ws } ∧
    numeral 16 (ws.map BitVec.toNat) =
      numeral 5 (codes.map fun d => d.toNat % 32) * 2 ^ (ws.length * 16 - codes.length * 5)

/-- R94: only the low 5 bits of each datum reach the output of a PACK. -/
def Obligations.PackTruncatesSilently : Prop :=
  ∀ (codes : List Operand) (s : State),
    execAll (packCommands codes) s = execAll (packCommands (codes.map fun d => d &&& 0x001F#16)) s

/-- R96 to R98, R100: an UNPACK, from any state, changes only the unpacker and appends `min(n, floor(16m / 5))` codes,
whose bits are the leading bits of the words' stream. -/
def Obligations.UnpackReadsTheStream : Prop :=
  ∀ (n : Operand) (words : List PackedWord) (s : State), ∃ (u : Unpacker) (cs : List Code),
    execAll (unpackCommands n words) s = .next { s with up := u, upOut := s.upOut ++ cs } ∧
    u.count = n ∧ u.emitted.toNat = cs.length ∧
    cs.length = min n.toNat (words.length * 16 / 5) ∧
    codeStream cs = (wordStream words).take (cs.length * 5)

/-- R77, R98: two word sequences of one length that agree on the bits of the codes asked for unpack alike: pad bits and
surplus bits are not looked at. -/
def Obligations.UnpackIgnoresLaterBits : Prop :=
  ∀ (n : Operand) (words words' : List PackedWord) (s s' : State), words.length = words'.length →
    (wordStream words).take (min n.toNat (words.length * 16 / 5) * 5) =
      (wordStream words').take (min n.toNat (words.length * 16 / 5) * 5) →
    ∃ (cs : List Code) (t t' : State),
      execAll (unpackCommands n words) s = .next t ∧ execAll (unpackCommands n words') s' = .next t' ∧
      t.upOut = s.upOut ++ cs ∧ t'.upOut = s'.upOut ++ cs

/-- R99: the words a PACK of at most 65535 codes emits, given in order to an UNPACK with the number of codes, give the
codes back, each reduced to its low 5 bits. -/
def Obligations.PackThenUnpackGivesTheCodes : Prop :=
  ∀ (codes : List Operand) (s : State), codes.length ≤ 65535 → ∃ (ws : List PackedWord) (t u : State),
    execAll (packCommands codes) s = .next t ∧ t.pkOut = s.pkOut ++ ws ∧
    execAll (unpackCommands (BitVec.ofNat 16 codes.length) ws) t = .next u ∧
    u.upOut = s.upOut ++ codes.map symbolOf

/-- R101: with another count, a smaller one gives the first codes only, a larger one gives all codes and then zero codes
made of pad bits. -/
def Obligations.WrongCountUnpacksPadBits : Prop :=
  ∀ (codes : List Operand) (n : Operand) (s : State), ∃ (ws : List PackedWord) (t u : State),
    execAll (packCommands codes) s = .next t ∧ t.pkOut = s.pkOut ++ ws ∧
    execAll (unpackCommands n ws) t = .next u ∧
    u.upOut = s.upOut ++ ((codes.map symbolOf).take n.toNat ++
      List.replicate (min n.toNat (ws.length * 16 / 5) - codes.length) 0#5)

/-- R88, R102: a DECODE, from any state, changes only the decoder and appends the text DOC00's `decode` gives for the
codes and the tables, which has at most one character per code. -/
def Obligations.DecodeEmitsTheText : Prop :=
  ∀ (codes : List Operand) (s : State), ∃ dc : Decoder,
    execAll (decodeCommands codes) s =
      .next { s with dc := dc, dcOut := s.dcOut ++ decodeText s.tables (codes.map symbolOf) } ∧
    (decodeText s.tables (codes.map symbolOf)).length ≤ codes.length

/-- R103: with any tables that have the entries the rule names, packing the nine codes of the message, unpacking the
words with count 9 and decoding the codes appends the characters of "TEST 123" (in the codes of the spec's vectors,
log 15), whatever the state before. -/
def Obligations.TestMessageSurvivesThePipeline : Prop :=
  ∀ (s : State) (cT cE cS cSp cSh c1 c2 c3 : Code) (sh : EntryBits),
    s.tables[cT.toNat]? = some 0x154#10 → s.tables[cE.toNat]? = some 0x145#10 →
    s.tables[cS.toNat]? = some 0x153#10 → s.tables[cSp.toNat]? = some 0x120#10 →
    s.tables[cSh.toNat]? = some sh → sh.extractLsb' 8 2 = 0b10#2 → sh.getLsbD 0 = true →
    s.tables[32 + c1.toNat]? = some 0x131#10 → s.tables[32 + c2.toNat]? = some 0x132#10 →
    s.tables[32 + c3.toNat]? = some 0x133#10 →
    ∃ (w0 w1 w2 : PackedWord) (cs : List Code) (t u v : State),
      execAll (packCommands ([cT, cE, cS, cT, cSp, cSh, c1, c2, c3].map operandOfCode)) s = .next t ∧
      t.pkOut = s.pkOut ++ [w0, w1, w2] ∧
      execAll (unpackCommands 9#16 [w0, w1, w2]) t = .next u ∧ u.upOut = s.upOut ++ cs ∧
      execAll (decodeCommands (cs.map operandOfCode)) u = .next v ∧
      v.dcOut = s.dcOut ++ [0x54#8, 0x45#8, 0x53#8, 0x54#8, 0x20#8, 0x31#8, 0x32#8, 0x33#8]

/-- R28, R104: what a PACK, an UNPACK or a DECODE appends depends on its operands (and the tables) only: it is the same
from every state. -/
def Obligations.InvocationsAreStateless : Prop :=
  (∀ codes : List Operand, ∃ ws, ∀ s : State, ∃ t,
    execAll (packCommands codes) s = .next t ∧ t.pkOut = s.pkOut ++ ws) ∧
  (∀ (n : Operand) (words : List PackedWord), ∃ cs, ∀ s : State, ∃ t,
    execAll (unpackCommands n words) s = .next t ∧ t.upOut = s.upOut ++ cs) ∧
  (∀ (codes : List Operand) (rom : TableRom), ∃ xs, ∀ s : State, s.tables = rom → ∃ t,
    execAll (decodeCommands codes) s = .next t ∧ t.dcOut = s.dcOut ++ xs)

/- Arithmetic and widths. -/

/-- R63, R74: the registers are wide enough: the widest accumulator value and count inside PK.PUSH and UP.PUSH fit 20 and
5 bits, and a PACK or an UNPACK on the registers appends what the same algorithm on unbounded naturals gives, every
emitted value fitting its width. -/
def Obligations.RegistersAreWideEnough : Prop :=
  (∀ (d : Operand) (s : State), s.pk.Inv →
    (s.pk.residue.shiftIn 5 (maskTo 5 d.toNat)).acc < 2 ^ 20 ∧
    (s.pk.residue.shiftIn 5 (maskTo 5 d.toNat)).held ≤ 20) ∧
  (∀ (w : Operand) (s : State), s.up.Inv → s.up.emitted ≠ s.up.count →
    (s.up.residue.shiftIn 16 w.toNat).acc < 2 ^ 20 ∧ (s.up.residue.shiftIn 16 w.toNat).held ≤ 20) ∧
  (∀ (codes : List Operand) (s : State), ∃ t, execAll (packCommands codes) s = .next t ∧
    t.pkOut = s.pkOut ++ (packWith 5 16 (codes.map BitVec.toNat)).map (BitVec.ofNat 16) ∧
    ∀ v ∈ packWith 5 16 (codes.map BitVec.toNat), v < 2 ^ 16) ∧
  (∀ (n : Operand) (words : List PackedWord) (s : State), ∃ t, execAll (unpackCommands n words) s = .next t ∧
    t.upOut = s.upOut ++ (unpackWith 5 16 n.toNat (words.map BitVec.toNat)).map (BitVec.ofNat 5) ∧
    ∀ v ∈ unpackWith 5 16 n.toNat (words.map BitVec.toNat), v < 2 ^ 5)

/-- R7: the packer's algorithm for every pair of widths: length, layout, zero padding, word range. -/
def Obligations.PackAtEveryWidth : Prop :=
  ∀ (S W : Nat) (codes : List Nat), widthsWellFormed S W = true →
    (packWith S W codes).length = ceilDiv (codes.length * S) W ∧
    streamBits W (packWith S W codes) = streamBits S (codes.map (maskTo S)) ++
      List.replicate ((packWith S W codes).length * W - codes.length * S) false ∧
    ∀ v ∈ packWith S W codes, v < 2 ^ W

/-- R7: the unpacker's algorithm for every pair of widths: length and content, and the round trip with the packer. -/
def Obligations.UnpackAtEveryWidth : Prop :=
  ∀ (S W : Nat), widthsWellFormed S W = true →
    (∀ (n : Nat) (words : List Nat), (∀ v ∈ words, v < 2 ^ W) →
      (unpackWith S W n words).length = min n (words.length * W / S) ∧
      streamBits S (unpackWith S W n words) =
        (streamBits W words).take ((unpackWith S W n words).length * S)) ∧
    (∀ codes : List Nat, unpackWith S W codes.length (packWith S W codes) = codes.map (maskTo S))

/- Outside the block. -/

/-- R37, R137: words stored and loaded in one byte order come back, for the platform's order and for each order; stored
in one and loaded in the other, they come back only if the two bytes of every word are equal, so some word does not,
whichever order stores it. The host-link functions and the platform's order are the model's choice (log 10). The last
clause, that the bytes carry the MSB-first stream on with the high byte first, is R37's remark, which it calls no rule. -/
def Obligations.ByteOrderMustMatch : Prop :=
  (∀ ws : List PackedWord, loadWords (storeWords ws) = ws) ∧
  (∀ (order : ByteOrder) (ws : List PackedWord), bytesToWords order (ws.flatMap (wordToBytes order)) = ws) ∧
  (∀ (order other : ByteOrder) (ws : List PackedWord), order ≠ other →
    (bytesToWords other (ws.flatMap (wordToBytes order)) = ws ↔
      ∀ w ∈ ws, w.extractLsb' 8 8 = w.extractLsb' 0 8)) ∧
  (∃ w, bytesToWords .little (wordToBytes .big w) ≠ [w]) ∧
  (∃ w, bytesToWords .big (wordToBytes .little w) ≠ [w]) ∧
  (∀ ws : List PackedWord, streamBits 8 ((ws.flatMap (wordToBytes .big)).map BitVec.toNat) = wordStream ws)

/-- R53, R56, R57: the examples of the assembler syntax, an operand reduced modulo 65536, a comment line, RESET, and the
expansions of the pseudo-instructions. -/
def Obligations.AssemblerExamples : Prop :=
  assembleLine "PK.PUSH 0x2D".toList = .ok [.command 0x11002D#24] ∧
  assembleLine "UP.START 9".toList = .ok [.command 0x200009#24] ∧
  assembleLine "UP.PUSH 0x804B".toList = .ok [.command 0x21804B#24] ∧
  assembleLine "DC.START".toList = .ok [.command 0x300000#24] ∧
  assembleLine "DC.PUSH 27".toList = .ok [.command 0x31001B#24] ∧
  assembleLine "PK.PUSH 0b101101 ; forty-five".toList = .ok [.command 0x11002D#24] ∧
  assembleLine "PK.PUSH 70000".toList = .ok [.command 0x111170#24] ∧
  assembleLine "RESET".toList = .ok [.reset] ∧
  assembleLine "PACK".toList = .ok [.command 0x100000#24, .command 0x120000#24] ∧
  assembleLine "PACK 1, 2".toList =
    .ok [.command 0x100000#24, .command 0x110001#24, .command 0x110002#24, .command 0x120000#24] ∧
  assembleLine "UNPACK 9, 0x804B".toList = .ok [.command 0x200009#24, .command 0x21804B#24] ∧
  assembleLine "DECODE 16".toList = .ok [.command 0x300000#24, .command 0x310010#24]
end

