-- ==== Sys2Proof/Laws/Decode.lean ====
section
/-! SUPPORT. The fields of an encoded command, and what the decoder answers by operation code. -/

namespace Sys2Proof

/-- The bits of a command word given by its two fields (R51). -/
theorem getLsbD_word (o : Opc) (d : Operand) (i : Nat) :
    (o ++ d : CommandWord).getLsbD i = if i < 16 then d.getLsbD i else o.getLsbD (i - 16) :=
  BitVec.getLsbD_append (x := o) (y := d)

@[simp] theorem opcField_append (o : Opc) (d : Operand) : opcField (o ++ d) = o := by
  refine BitVec.eq_of_getLsbD_eq fun i hi => ?_
  simp only [opcField, BitVec.getLsbD_extractLsb', getLsbD_word]
  simp [hi]

@[simp] theorem opdField_append (o : Opc) (d : Operand) : opdField (o ++ d) = d := by
  refine BitVec.eq_of_getLsbD_eq fun i hi => ?_
  simp only [opdField, BitVec.getLsbD_extractLsb', getLsbD_word]
  simp [hi]

/-- A word is its two fields. -/
theorem opc_append_opd (w : CommandWord) : (opcField w ++ opdField w : CommandWord) = w := by
  refine BitVec.eq_of_getLsbD_eq fun i hi => ?_
  rw [getLsbD_word]
  simp only [opcField, opdField, BitVec.getLsbD_extractLsb']
  split
  · simp [*]
  · simp [show i - 16 < 8 by omega, show 16 + (i - 16) = i by omega]

theorem wordWellFormed_eq (w : CommandWord) : wordWellFormed w = definedOpc (opcField w) := rfl

/-- The defined operation codes, one by one (R52). -/
theorem definedOpc_iff (o : Opc) : definedOpc o = true ↔
    o = 0x10#8 ∨ o = 0x11#8 ∨ o = 0x12#8 ∨ o = 0x20#8 ∨ o = 0x21#8 ∨ o = 0x30#8 ∨ o = 0x31#8 := by
  simp [definedOpc, or_assoc]

/-- A word whose operation code is not defined is rejected by name (R54). -/
theorem decode_reserved {w : CommandWord} (h : wordWellFormed w = false) :
    decode w = .error (.reservedOpc (opcField w)) := by
  have h' : ¬ definedOpc (opcField w) = true := by rw [← wordWellFormed_eq, h]; simp
  rw [definedOpc_iff] at h'
  push Not at h'
  obtain ⟨h1, h2, h3, h4, h5, h6, h7⟩ := h'
  simp [decode, h1, h2, h3, h4, h5, h6, h7]

end Sys2Proof
end

