-- ==== Sys2Proof/Laws/Streams.lean ====
section
/-! SUPPORT. Lemmas about the MSB-first bit lists of Machine/Streams.lean. -/

namespace Sys2Proof.Machine

@[simp] theorem msbBits_zero (v : Nat) : msbBits 0 v = [] := rfl

@[simp] theorem msbBits_length (n v : Nat) : (msbBits n v).length = n := by
  induction n with
  | zero => rfl
  | succ n ih => simp [msbBits, ih]

/-- The bits depend on the bits of the value below `n` only. -/
theorem msbBits_congr {n u v : Nat} (h : ∀ i < n, u.testBit i = v.testBit i) : msbBits n u = msbBits n v := by
  induction n with
  | zero => rfl
  | succ n ih => simp [msbBits, h n (Nat.lt_succ_self n), ih fun i hi => h i (Nat.lt_succ_of_lt hi)]

/-- The first `a` of `a + b` bits are the bits above position `b`. -/
theorem msbBits_add (a b v : Nat) : msbBits (a + b) v = msbBits a (v >>> b) ++ msbBits b v := by
  induction a with
  | zero => simp
  | succ a ih =>
    rw [Nat.succ_add]
    simp [msbBits, ih, Nat.testBit_shiftRight, Nat.add_comm b a]

theorem msbBits_mod {n m : Nat} (h : n ≤ m) (v : Nat) : msbBits n (v % 2 ^ m) = msbBits n v :=
  msbBits_congr fun i hi => by simp [Nat.testBit_mod_two_pow, Nat.lt_of_lt_of_le hi h]

/-- Shifting a value in below another appends its bits. -/
theorem msbBits_shiftIn {b w : Nat} (hw : w < 2 ^ b) (a v : Nat) :
    msbBits (a + b) ((v <<< b) ||| w) = msbBits a v ++ msbBits b w := by
  rw [msbBits_add]
  congr 1
  · refine msbBits_congr fun i _ => ?_
    have : w.testBit (b + i) = false := Nat.testBit_lt_two_pow (lt_of_lt_of_le hw (Nat.pow_le_pow_right (by omega) (by omega)))
    simp [Nat.testBit_shiftRight, Nat.testBit_or, Nat.testBit_shiftLeft, this]
  · refine msbBits_congr fun i hi => ?_
    simp [Nat.testBit_or, Nat.testBit_shiftLeft, Nat.not_le.2 hi]

/-- The bits determine a value that fits. -/
theorem msbBits_inj {n u v : Nat} (hu : u < 2 ^ n) (hv : v < 2 ^ n) (h : msbBits n u = msbBits n v) : u = v := by
  refine Nat.eq_of_testBit_eq fun i => ?_
  have key : ∀ n, msbBits n u = msbBits n v → ∀ i < n, u.testBit i = v.testBit i := by
    intro n
    induction n with
    | zero => intro _ i hi; omega
    | succ n ih =>
      intro h i hi
      simp only [msbBits, List.cons.injEq] at h
      rcases Nat.lt_succ_iff_lt_or_eq.1 hi with hi | rfl
      · exact ih h.2 i hi
      · exact h.1
  by_cases hi : i < n
  · exact key n h i hi
  · have hp : 2 ^ n ≤ 2 ^ i := Nat.pow_le_pow_right (by omega) (by omega)
    rw [Nat.testBit_lt_two_pow (lt_of_lt_of_le hu hp), Nat.testBit_lt_two_pow (lt_of_lt_of_le hv hp)]

theorem msbBits_zero_value (n : Nat) : msbBits n 0 = List.replicate n false := by
  induction n with
  | zero => rfl
  | succ n ih => simp [msbBits, ih, List.replicate_succ]

theorem msbBits_getElem? {n v i : Nat} (h : i < n) : (msbBits n v)[i]? = some (v.testBit (n - 1 - i)) := by
  induction n generalizing i with
  | zero => omega
  | succ n ih =>
    cases i with
    | zero => simp [msbBits]
    | succ i =>
      have h' : i < n := by omega
      have e : n + 1 - 1 - (i + 1) = n - 1 - i := by omega
      simp only [msbBits, List.getElem?_cons_succ, e]
      exact ih h'

@[simp] theorem streamBits_nil (n : Nat) : streamBits n [] = [] := rfl

@[simp] theorem streamBits_cons (n v : Nat) (vs : List Nat) : streamBits n (v :: vs) = msbBits n v ++ streamBits n vs := by
  simp [streamBits]

@[simp] theorem streamBits_append (n : Nat) (us vs : List Nat) :
    streamBits n (us ++ vs) = streamBits n us ++ streamBits n vs := by
  simp [streamBits]

@[simp] theorem streamBits_length (n : Nat) (vs : List Nat) : (streamBits n vs).length = vs.length * n := by
  induction vs with
  | nil => simp
  | cons v vs ih => simp [ih, Nat.succ_mul, Nat.add_comm]

/-- Values that fit are determined by their stream. -/
theorem streamBits_inj {n : Nat} :
    ∀ {us vs : List Nat}, (∀ v ∈ us, v < 2 ^ n) → (∀ v ∈ vs, v < 2 ^ n) → us.length = vs.length →
      streamBits n us = streamBits n vs → us = vs
  | [], [], _, _, _, _ => rfl
  | u :: us, v :: vs, hu, hv, hl, h => by
    simp only [streamBits_cons] at h
    obtain ⟨h1, h2⟩ := List.append_inj h (by simp)
    rw [msbBits_inj (hu u (by simp)) (hv v (by simp)) h1,
      streamBits_inj (fun x hx => hu x (by simp [hx])) (fun x hx => hv x (by simp [hx])) (by simpa using hl) h2]

@[simp] theorem numeral_nil (n : Nat) : numeral n [] = 0 := rfl

@[simp] theorem numeral_concat (n : Nat) (vs : List Nat) (v : Nat) :
    numeral n (vs ++ [v]) = numeral n vs * 2 ^ n + v := by
  simp [numeral]

/-- Streams of equal bits are equal numerals. -/
theorem numeral_stream (n : Nat) : ∀ vs : List Nat, (∀ v ∈ vs, v < 2 ^ n) →
    msbBits (vs.length * n) (numeral n vs) = streamBits n vs ∧ numeral n vs < 2 ^ (vs.length * n) := by
  intro vs
  induction vs using List.reverseRecOn with
  | nil => intro _; simp
  | append_singleton vs v ih =>
    intro h
    obtain ⟨ih1, ih2⟩ := ih fun x hx => h x (by simp [hx])
    have hv : v < 2 ^ n := h v (by simp)
    have e : numeral n vs * 2 ^ n + v = (numeral n vs <<< n) ||| v := by
      rw [Nat.shiftLeft_eq, Nat.mul_comm, Nat.two_pow_add_eq_or_of_lt hv]
    have hl : (vs ++ [v]).length * n = vs.length * n + n := by simp [Nat.succ_mul]
    rw [numeral_concat, hl]
    constructor
    · rw [e, msbBits_shiftIn hv, ih1]; simp
    · rw [Nat.pow_add]
      calc numeral n vs * 2 ^ n + v < numeral n vs * 2 ^ n + 2 ^ n := by omega
        _ = (numeral n vs + 1) * 2 ^ n := by ring
        _ ≤ _ := Nat.mul_le_mul_right _ ih2

end Sys2Proof.Machine
end

