-- ==== Sys2Proof/Laws/Ops.lean ====
section
/-! SUPPORT. What the shared residue operations do (Machine/Ops.lean): one lemma per question a proof asks of them. -/

namespace Sys2Proof.Machine

/-- The bits a residue holds, earliest first (R11). -/
def Residue.bits (r : Residue) : List Bool :=
  msbBits r.held r.acc

/-- Every bit at or above position `held` is zero (R13, R18). -/
def Residue.Fits (r : Residue) : Prop :=
  r.acc < 2 ^ r.held

@[simp] theorem Residue.empty_bits : Residue.empty.bits = [] := rfl
@[simp] theorem Residue.empty_held : Residue.empty.held = 0 := rfl
@[simp] theorem Residue.empty_acc : Residue.empty.acc = 0 := rfl
theorem Residue.empty_fits : Residue.empty.Fits := by simp [Residue.Fits]

@[simp] theorem Residue.shiftIn_held (n v : Nat) (r : Residue) : (r.shiftIn n v).held = r.held + n := rfl

theorem Residue.shiftIn_bits {n v : Nat} (hv : v < 2 ^ n) (r : Residue) :
    (r.shiftIn n v).bits = r.bits ++ msbBits n v :=
  msbBits_shiftIn hv _ _

theorem Residue.shiftIn_acc {n v : Nat} (hv : v < 2 ^ n) (r : Residue) : (r.shiftIn n v).acc = r.acc * 2 ^ n + v := by
  simp only [Residue.shiftIn, Nat.shiftLeft_eq]
  rw [Nat.mul_comm, Nat.two_pow_add_eq_or_of_lt hv]

theorem Residue.shiftIn_fits {n v : Nat} (hv : v < 2 ^ n) {r : Residue} (hr : r.Fits) : (r.shiftIn n v).Fits := by
  unfold Residue.Fits
  rw [Residue.shiftIn_acc hv, Residue.shiftIn_held, Nat.pow_add]
  calc r.acc * 2 ^ n + v < r.acc * 2 ^ n + 2 ^ n := by omega
    _ = (r.acc + 1) * 2 ^ n := by ring
    _ ≤ _ := Nat.mul_le_mul_right _ hr

theorem maskTo_lt (n v : Nat) : maskTo n v < 2 ^ n :=
  Nat.mod_lt _ (Nat.two_pow_pos n)

theorem Residue.top_lt (n : Nat) (r : Residue) : r.top n < 2 ^ n :=
  maskTo_lt _ _

@[simp] theorem Residue.dropTop_held (n : Nat) (r : Residue) : (r.dropTop n).held = r.held - n := rfl

theorem Residue.dropTop_fits (n : Nat) (r : Residue) : (r.dropTop n).Fits :=
  maskTo_lt _ _

/-- Taking the top bits off splits the bits held. -/
theorem Residue.top_append_dropTop {n : Nat} {r : Residue} (h : n ≤ r.held) :
    msbBits n (r.top n) ++ (r.dropTop n).bits = r.bits := by
  have e : r.held = n + (r.held - n) := by omega
  unfold Residue.bits Residue.top Residue.dropTop maskTo
  conv_rhs => rw [e, msbBits_add]
  simp [msbBits_mod (Nat.le_refl _)]

@[simp] theorem drain_zero (n : Nat) (r : Residue) : drain n 0 r = ([], r) := rfl

theorem drain_lt_held {n limit : Nat} {r : Residue} (h : r.held < n) : drain n limit r = ([], r) := by
  cases limit with
  | zero => rfl
  | succ limit => simp [drain, Nat.not_le.2 h]

theorem drain_succ {n limit : Nat} {r : Residue} (h : n ≤ r.held) :
    drain n (limit + 1) r = (r.top n :: (drain n limit (r.dropTop n)).1, (drain n limit (r.dropTop n)).2) := by
  simp [drain, h]

/-- The values emitted and the residue left are the bits held, in order. -/
theorem drain_bits (n limit : Nat) (r : Residue) :
    streamBits n (drain n limit r).1 ++ (drain n limit r).2.bits = r.bits := by
  induction limit generalizing r with
  | zero => simp
  | succ limit ih =>
    by_cases h : n ≤ r.held
    · rw [drain_succ h]
      simp [List.append_assoc, ih, Residue.top_append_dropTop h]
    · rw [drain_lt_held (by omega)]; simp

/-- How many values go out (R64, R75). -/
theorem drain_length {n : Nat} (hn : 0 < n) (limit : Nat) (r : Residue) :
    (drain n limit r).1.length = min limit (r.held / n) := by
  induction limit generalizing r with
  | zero => simp
  | succ limit ih =>
    by_cases h : n ≤ r.held
    · rw [drain_succ h]
      have : r.held / n = (r.held - n) / n + 1 := Nat.div_eq_sub_div hn h
      simp only [List.length_cons, ih, Residue.dropTop_held, this]
      omega
    · rw [drain_lt_held (by omega), Nat.div_eq_of_lt (by omega)]; simp

/-- Every bit held goes out or stays. -/
theorem drain_held (n limit : Nat) (r : Residue) :
    (drain n limit r).1.length * n + (drain n limit r).2.held = r.held := by
  have := congrArg List.length (drain_bits n limit r)
  simpa [Residue.bits] using this

theorem drain_fits (n limit : Nat) {r : Residue} (hr : r.Fits) : (drain n limit r).2.Fits := by
  induction limit generalizing r with
  | zero => exact hr
  | succ limit ih =>
    by_cases h : n ≤ r.held
    · rw [drain_succ h]; exact ih (Residue.dropTop_fits n r)
    · rw [drain_lt_held (by omega)]; exact hr

theorem drain_lt (n limit : Nat) (r : Residue) : ∀ v ∈ (drain n limit r).1, v < 2 ^ n := by
  induction limit generalizing r with
  | zero => simp
  | succ limit ih =>
    by_cases h : n ≤ r.held
    · rw [drain_succ h]
      intro v hv
      rcases List.mem_cons.1 hv with rfl | hv
      · exact Residue.top_lt n r
      · exact ih _ v hv
    · rw [drain_lt_held (by omega)]; simp

/-- What is left of a residue that fits is its low bits. -/
theorem drain_acc (n limit : Nat) {r : Residue} (hr : r.Fits) :
    (drain n limit r).2.acc = r.acc % 2 ^ (drain n limit r).2.held := by
  induction limit generalizing r with
  | zero => exact (Nat.mod_eq_of_lt hr).symm
  | succ limit ih =>
    by_cases h : n ≤ r.held
    · rw [drain_succ h]
      simp only
      rw [ih (Residue.dropTop_fits n r)]
      have := drain_held n limit (r.dropTop n)
      rw [Residue.dropTop_held] at this
      exact Nat.mod_mod_of_dvd _ (pow_dvd_pow 2 (by omega))
    · rw [drain_lt_held (by omega)]; exact (Nat.mod_eq_of_lt hr).symm

/-- The value emitted in pass `j` is the `j`-th group of `n` bits from the top. -/
theorem drain_getElem? (n limit : Nat) (r : Residue) (j : Nat) (hj : j < (drain n limit r).1.length) :
    (drain n limit r).1[j]? = some (r.acc / 2 ^ (r.held - n * (j + 1)) % 2 ^ n) := by
  induction limit generalizing r j with
  | zero => simp at hj
  | succ limit ih =>
    by_cases h : n ≤ r.held
    · rw [drain_succ h] at hj ⊢
      cases j with
      | zero => simp [Residue.top, maskTo, Nat.shiftRight_eq_div_pow]
      | succ j =>
        simp only [List.length_cons] at hj
        have hj' : j < (drain n limit (r.dropTop n)).1.length := by omega
        have hb := drain_held n limit (r.dropTop n)
        rw [Residue.dropTop_held] at hb
        have hb2 : (j + 1) * n ≤ (drain n limit (r.dropTop n)).1.length * n := Nat.mul_le_mul_right _ hj'
        rw [List.getElem?_cons_succ, ih _ _ hj']
        have e1 : (r.dropTop n).held - n * (j + 1) = r.held - n * (j + 1 + 1) := by
          rw [Residue.dropTop_held, Nat.mul_succ n (j + 1)]; omega
        have e2 : r.held - n = (r.held - n * (j + 1 + 1)) + n * (j + 1) := by
          rw [Nat.mul_succ n (j + 1), Nat.mul_comm n (j + 1)]; omega
        rw [e1]
        simp only [Residue.dropTop, maskTo]
        congr 1
        rw [e2, Nat.pow_add, Nat.mod_mul_right_div_self]
        exact Nat.mod_mod_of_dvd _ (pow_dvd_pow 2 (Nat.le_mul_of_pos_right n (Nat.succ_pos j)))
    · rw [drain_lt_held (by omega)] at hj; simp at hj

end Sys2Proof.Machine
end

