-- ==== Sys2Proof/Laws/State.lean ====
section
/-! SUPPORT. One lemma per field per update of State, so that no proof unfolds a record update. -/

namespace Sys2Proof.Machine

@[simp] theorem State.writePk_pk (s : State) (r : Residue) : (s.writePk r).pk = { acc := BitVec.ofNat 20 r.acc, held := BitVec.ofNat 5 r.held } := rfl
@[simp] theorem State.writePk_up (s : State) (r : Residue) : (s.writePk r).up = s.up := rfl
@[simp] theorem State.writePk_dc (s : State) (r : Residue) : (s.writePk r).dc = s.dc := rfl
@[simp] theorem State.writePk_pkOut (s : State) (r : Residue) : (s.writePk r).pkOut = s.pkOut := rfl
@[simp] theorem State.writePk_upOut (s : State) (r : Residue) : (s.writePk r).upOut = s.upOut := rfl
@[simp] theorem State.writePk_dcOut (s : State) (r : Residue) : (s.writePk r).dcOut = s.dcOut := rfl
@[simp] theorem State.writePk_tables (s : State) (r : Residue) : (s.writePk r).tables = s.tables := rfl
@[simp] theorem State.writePk_pending (s : State) (r : Residue) : (s.writePk r).pending = s.pending := rfl

@[simp] theorem State.writeUp_pk (s : State) (r : Residue) : (s.writeUp r).pk = s.pk := rfl
@[simp] theorem State.writeUp_up (s : State) (r : Residue) : (s.writeUp r).up = { s.up with acc := BitVec.ofNat 20 r.acc, held := BitVec.ofNat 5 r.held } := rfl
@[simp] theorem State.writeUp_dc (s : State) (r : Residue) : (s.writeUp r).dc = s.dc := rfl
@[simp] theorem State.writeUp_pkOut (s : State) (r : Residue) : (s.writeUp r).pkOut = s.pkOut := rfl
@[simp] theorem State.writeUp_upOut (s : State) (r : Residue) : (s.writeUp r).upOut = s.upOut := rfl
@[simp] theorem State.writeUp_dcOut (s : State) (r : Residue) : (s.writeUp r).dcOut = s.dcOut := rfl
@[simp] theorem State.writeUp_tables (s : State) (r : Residue) : (s.writeUp r).tables = s.tables := rfl
@[simp] theorem State.writeUp_pending (s : State) (r : Residue) : (s.writeUp r).pending = s.pending := rfl

@[simp] theorem State.writeCount_pk (s : State) (n : BitVec 16) : (s.writeCount n).pk = s.pk := rfl
@[simp] theorem State.writeCount_up (s : State) (n : BitVec 16) : (s.writeCount n).up = { s.up with count := n } := rfl
@[simp] theorem State.writeCount_dc (s : State) (n : BitVec 16) : (s.writeCount n).dc = s.dc := rfl
@[simp] theorem State.writeCount_pkOut (s : State) (n : BitVec 16) : (s.writeCount n).pkOut = s.pkOut := rfl
@[simp] theorem State.writeCount_upOut (s : State) (n : BitVec 16) : (s.writeCount n).upOut = s.upOut := rfl
@[simp] theorem State.writeCount_dcOut (s : State) (n : BitVec 16) : (s.writeCount n).dcOut = s.dcOut := rfl
@[simp] theorem State.writeCount_tables (s : State) (n : BitVec 16) : (s.writeCount n).tables = s.tables := rfl
@[simp] theorem State.writeCount_pending (s : State) (n : BitVec 16) : (s.writeCount n).pending = s.pending := rfl

@[simp] theorem State.writeEmitted_pk (s : State) (n : BitVec 16) : (s.writeEmitted n).pk = s.pk := rfl
@[simp] theorem State.writeEmitted_up (s : State) (n : BitVec 16) : (s.writeEmitted n).up = { s.up with emitted := n } := rfl
@[simp] theorem State.writeEmitted_dc (s : State) (n : BitVec 16) : (s.writeEmitted n).dc = s.dc := rfl
@[simp] theorem State.writeEmitted_pkOut (s : State) (n : BitVec 16) : (s.writeEmitted n).pkOut = s.pkOut := rfl
@[simp] theorem State.writeEmitted_upOut (s : State) (n : BitVec 16) : (s.writeEmitted n).upOut = s.upOut := rfl
@[simp] theorem State.writeEmitted_dcOut (s : State) (n : BitVec 16) : (s.writeEmitted n).dcOut = s.dcOut := rfl
@[simp] theorem State.writeEmitted_tables (s : State) (n : BitVec 16) : (s.writeEmitted n).tables = s.tables := rfl
@[simp] theorem State.writeEmitted_pending (s : State) (n : BitVec 16) : (s.writeEmitted n).pending = s.pending := rfl

@[simp] theorem State.writeShift_pk (s : State) (st : BitVec 1) : (s.writeShift st).pk = s.pk := rfl
@[simp] theorem State.writeShift_up (s : State) (st : BitVec 1) : (s.writeShift st).up = s.up := rfl
@[simp] theorem State.writeShift_dc (s : State) (st : BitVec 1) : (s.writeShift st).dc = { shift := st } := rfl
@[simp] theorem State.writeShift_pkOut (s : State) (st : BitVec 1) : (s.writeShift st).pkOut = s.pkOut := rfl
@[simp] theorem State.writeShift_upOut (s : State) (st : BitVec 1) : (s.writeShift st).upOut = s.upOut := rfl
@[simp] theorem State.writeShift_dcOut (s : State) (st : BitVec 1) : (s.writeShift st).dcOut = s.dcOut := rfl
@[simp] theorem State.writeShift_tables (s : State) (st : BitVec 1) : (s.writeShift st).tables = s.tables := rfl
@[simp] theorem State.writeShift_pending (s : State) (st : BitVec 1) : (s.writeShift st).pending = s.pending := rfl

@[simp] theorem State.emitPk_pk (s : State) (ws : List Nat) : (s.emitPk ws).pk = s.pk := rfl
@[simp] theorem State.emitPk_up (s : State) (ws : List Nat) : (s.emitPk ws).up = s.up := rfl
@[simp] theorem State.emitPk_dc (s : State) (ws : List Nat) : (s.emitPk ws).dc = s.dc := rfl
@[simp] theorem State.emitPk_pkOut (s : State) (ws : List Nat) : (s.emitPk ws).pkOut = s.pkOut ++ ws.map (BitVec.ofNat 16) := rfl
@[simp] theorem State.emitPk_upOut (s : State) (ws : List Nat) : (s.emitPk ws).upOut = s.upOut := rfl
@[simp] theorem State.emitPk_dcOut (s : State) (ws : List Nat) : (s.emitPk ws).dcOut = s.dcOut := rfl
@[simp] theorem State.emitPk_tables (s : State) (ws : List Nat) : (s.emitPk ws).tables = s.tables := rfl
@[simp] theorem State.emitPk_pending (s : State) (ws : List Nat) : (s.emitPk ws).pending = s.pending := rfl

@[simp] theorem State.emitUp_pk (s : State) (cs : List Nat) : (s.emitUp cs).pk = s.pk := rfl
@[simp] theorem State.emitUp_up (s : State) (cs : List Nat) : (s.emitUp cs).up = s.up := rfl
@[simp] theorem State.emitUp_dc (s : State) (cs : List Nat) : (s.emitUp cs).dc = s.dc := rfl
@[simp] theorem State.emitUp_pkOut (s : State) (cs : List Nat) : (s.emitUp cs).pkOut = s.pkOut := rfl
@[simp] theorem State.emitUp_upOut (s : State) (cs : List Nat) : (s.emitUp cs).upOut = s.upOut ++ cs.map (BitVec.ofNat 5) := rfl
@[simp] theorem State.emitUp_dcOut (s : State) (cs : List Nat) : (s.emitUp cs).dcOut = s.dcOut := rfl
@[simp] theorem State.emitUp_tables (s : State) (cs : List Nat) : (s.emitUp cs).tables = s.tables := rfl
@[simp] theorem State.emitUp_pending (s : State) (cs : List Nat) : (s.emitUp cs).pending = s.pending := rfl

@[simp] theorem State.emitDc_pk (s : State) (cs : List Character) : (s.emitDc cs).pk = s.pk := rfl
@[simp] theorem State.emitDc_up (s : State) (cs : List Character) : (s.emitDc cs).up = s.up := rfl
@[simp] theorem State.emitDc_dc (s : State) (cs : List Character) : (s.emitDc cs).dc = s.dc := rfl
@[simp] theorem State.emitDc_pkOut (s : State) (cs : List Character) : (s.emitDc cs).pkOut = s.pkOut := rfl
@[simp] theorem State.emitDc_upOut (s : State) (cs : List Character) : (s.emitDc cs).upOut = s.upOut := rfl
@[simp] theorem State.emitDc_dcOut (s : State) (cs : List Character) : (s.emitDc cs).dcOut = s.dcOut ++ cs := rfl
@[simp] theorem State.emitDc_tables (s : State) (cs : List Character) : (s.emitDc cs).tables = s.tables := rfl
@[simp] theorem State.emitDc_pending (s : State) (cs : List Character) : (s.emitDc cs).pending = s.pending := rfl

@[simp] theorem State.issue_pk (s : State) (inputs : List HostInput) : (s.issue inputs).pk = s.pk := rfl
@[simp] theorem State.issue_up (s : State) (inputs : List HostInput) : (s.issue inputs).up = s.up := rfl
@[simp] theorem State.issue_dc (s : State) (inputs : List HostInput) : (s.issue inputs).dc = s.dc := rfl
@[simp] theorem State.issue_pkOut (s : State) (inputs : List HostInput) : (s.issue inputs).pkOut = s.pkOut := rfl
@[simp] theorem State.issue_upOut (s : State) (inputs : List HostInput) : (s.issue inputs).upOut = s.upOut := rfl
@[simp] theorem State.issue_dcOut (s : State) (inputs : List HostInput) : (s.issue inputs).dcOut = s.dcOut := rfl
@[simp] theorem State.issue_tables (s : State) (inputs : List HostInput) : (s.issue inputs).tables = s.tables := rfl
@[simp] theorem State.issue_pending (s : State) (inputs : List HostInput) : (s.issue inputs).pending = s.pending ++ inputs := rfl

@[simp] theorem applyReset_pk (s : State) : (applyReset s).pk = { acc := 0#20, held := 0#5 } := rfl
@[simp] theorem applyReset_up (s : State) : (applyReset s).up = { acc := 0#20, held := 0#5, count := 0#16, emitted := 0#16 } := rfl
@[simp] theorem applyReset_dc (s : State) : (applyReset s).dc = { shift := 0#1 } := rfl
@[simp] theorem applyReset_pkOut (s : State) : (applyReset s).pkOut = s.pkOut := rfl
@[simp] theorem applyReset_upOut (s : State) : (applyReset s).upOut = s.upOut := rfl
@[simp] theorem applyReset_dcOut (s : State) : (applyReset s).dcOut = s.dcOut := rfl
@[simp] theorem applyReset_tables (s : State) : (applyReset s).tables = s.tables := rfl
@[simp] theorem applyReset_pending (s : State) : (applyReset s).pending = s.pending := rfl

@[simp] theorem takeInput_nil {s : State} (h : s.pending = []) : takeInput s = none := by
  simp [takeInput, h]

@[simp] theorem takeInput_cons {s : State} {input : HostInput} {rest : List HostInput}
    (h : s.pending = input :: rest) : takeInput s = some (input, { s with pending := rest }) := by
  simp [takeInput, h]

/-- Done, on the registers as numbers (R22). -/
theorem Unpacker.done_iff (u : Unpacker) : u.done = true ↔ u.emitted = u.count := by
  simp [Unpacker.done]

end Sys2Proof.Machine
end

