-- ==== Sys2Proof/Laws/Exec.lean ====
section
/-! SUPPORT. What each meaning and a step can do, said once; that a register write of the packer or the unpacker keeps
the value it is given (spec/40_packer.md R63, spec/41_unpacker.md R74); sequences of commands. -/

namespace Sys2Proof.Machine

/-! The invariants, on residues. -/

theorem Packer.inv_iff (p : Packer) : p.Inv ↔ p.residue.held ≤ 15 ∧ p.residue.Fits := Iff.rfl

theorem Packer.inv_zero : Packer.Inv ⟨0#20, 0#5⟩ := by decide

theorem Packer.residue_zero : (Packer.mk 0#20 0#5).residue = Residue.empty := rfl

/-- A residue that fits 20 bits is kept by the packer's registers. -/
theorem Packer.residue_ofNat {r : Residue} (hh : r.held ≤ 20) (hf : r.Fits) :
    (Packer.mk (BitVec.ofNat 20 r.acc) (BitVec.ofNat 5 r.held)).residue = r := by
  have ha : r.acc < 2 ^ 20 := lt_of_lt_of_le hf (Nat.pow_le_pow_right (by omega) hh)
  have h5 : r.held < 2 ^ 5 := by omega
  simp only [Packer.residue, BitVec.toNat_ofNat, Nat.mod_eq_of_lt ha, Nat.mod_eq_of_lt h5]

/-- A residue that fits 20 bits is kept by the unpacker's registers. -/
theorem Unpacker.residue_ofNat {r : Residue} (c e : BitVec 16) (hh : r.held ≤ 20) (hf : r.Fits) :
    (Unpacker.mk (BitVec.ofNat 20 r.acc) (BitVec.ofNat 5 r.held) c e).residue = r := by
  have ha : r.acc < 2 ^ 20 := lt_of_lt_of_le hf (Nat.pow_le_pow_right (by omega) hh)
  have h5 : r.held < 2 ^ 5 := by omega
  simp only [Unpacker.residue, BitVec.toNat_ofNat, Nat.mod_eq_of_lt ha, Nat.mod_eq_of_lt h5]

/-! The per-item steps, for every pair of widths. -/

theorem packStep_bits (S W : Nat) (r : Residue) (d : Nat) :
    streamBits W (packStep S W r d).1 ++ (packStep S W r d).2.bits = r.bits ++ msbBits S d := by
  rw [packStep, drain_bits, Residue.shiftIn_bits (maskTo_lt S d)]
  simp [maskTo, msbBits_mod]

theorem packStep_fits (S W : Nat) {r : Residue} (d : Nat) (hr : r.Fits) : (packStep S W r d).2.Fits :=
  drain_fits _ _ (Residue.shiftIn_fits (maskTo_lt S d) hr)

theorem packStep_length {S W : Nat} (hW : 0 < W) (r : Residue) (d : Nat) :
    (packStep S W r d).1.length = (r.held + S) / W := by
  rw [packStep, drain_length hW, Residue.shiftIn_held]
  exact Nat.min_eq_right (Nat.div_le_self _ _)

theorem packStep_held {S W : Nat} (hW : 0 < W) (r : Residue) (d : Nat) :
    (packStep S W r d).2.held = (r.held + S) % W := by
  have h := drain_held W (r.held + S) (r.shiftIn S (maskTo S d))
  have hl := packStep_length (S := S) hW r d
  rw [packStep] at hl ⊢
  rw [hl, Residue.shiftIn_held] at h
  have := Nat.div_add_mod' (r.held + S) W
  omega

theorem packStep_lt (S W : Nat) (r : Residue) (d : Nat) : ∀ v ∈ (packStep S W r d).1, v < 2 ^ W :=
  drain_lt _ _ _

theorem packFinish_bits {W : Nat} {r : Residue} (h : r.held ≤ W) :
    streamBits W (packFinish W r) = r.bits ++ List.replicate ((packFinish W r).length * W - r.held) false := by
  unfold packFinish
  split
  · rename_i h0
    have e : msbBits W (maskTo W (r.acc <<< (W - r.held))) = msbBits (r.held + (W - r.held)) ((r.acc <<< (W - r.held)) ||| 0) := by
      rw [maskTo, msbBits_mod (Nat.le_refl _), show r.held + (W - r.held) = W by omega]; simp
    simp only [streamBits_cons, streamBits_nil, List.append_nil, e]
    rw [msbBits_shiftIn (Nat.two_pow_pos _), msbBits_zero_value]
    simp [Residue.bits]
  · rename_i h0
    have : r.held = 0 := by omega
    simp [Residue.bits, this]

theorem packFinish_length (W : Nat) (r : Residue) : (packFinish W r).length = if r.held = 0 then 0 else 1 := by
  unfold packFinish
  split <;> split <;> simp_all

theorem packFinish_lt (W : Nat) (r : Residue) : ∀ v ∈ packFinish W r, v < 2 ^ W := by
  unfold packFinish
  split <;> simp [maskTo_lt]

theorem unpackStep_bits {S W w : Nat} (hw : w < 2 ^ W) (remaining : Nat) (r : Residue) :
    streamBits S (unpackStep S W remaining r w).1 ++ (unpackStep S W remaining r w).2.bits = r.bits ++ msbBits W w := by
  rw [unpackStep, drain_bits, Residue.shiftIn_bits hw]

theorem unpackStep_fits {S W w : Nat} (hw : w < 2 ^ W) (remaining : Nat) {r : Residue} (hr : r.Fits) :
    (unpackStep S W remaining r w).2.Fits :=
  drain_fits _ _ (Residue.shiftIn_fits hw hr)

theorem unpackStep_length {S : Nat} (hS : 0 < S) (W w remaining : Nat) (r : Residue) :
    (unpackStep S W remaining r w).1.length = min remaining ((r.held + W) / S) := by
  rw [unpackStep, drain_length hS, Residue.shiftIn_held]

theorem unpackStep_held (S W w remaining : Nat) (r : Residue) :
    (unpackStep S W remaining r w).1.length * S + (unpackStep S W remaining r w).2.held = r.held + W :=
  drain_held _ _ _

theorem unpackStep_lt (S W w remaining : Nat) (r : Residue) : ∀ v ∈ (unpackStep S W remaining r w).1, v < 2 ^ S :=
  drain_lt _ _ _

/-! The meanings. -/

theorem exec_pkStart (opd : Operand) (s : State) : exec (.pkStart opd) s = .next (s.writePk .empty) := rfl

theorem exec_pkPush (d : Operand) (s : State) : exec (.pkPush d) s =
    .next ((s.writePk (packStep 5 16 s.pk.residue d.toNat).2).emitPk (packStep 5 16 s.pk.residue d.toNat).1) := rfl

theorem exec_pkFlush (opd : Operand) (s : State) : exec (.pkFlush opd) s =
    .next ((s.emitPk (packFinish 16 s.pk.residue)).writePk .empty) := rfl

theorem exec_upStart (n : Operand) (s : State) : exec (.upStart n) s =
    .next (((s.writeUp .empty).writeEmitted 0#16).writeCount n) := rfl

theorem exec_upPush_done {s : State} (h : s.up.emitted = s.up.count) (w : Operand) : exec (.upPush w) s = .next s := by
  simp [exec, execUpPush, Unpacker.done, h]

theorem exec_upPush {s : State} (h : s.up.emitted ≠ s.up.count) (w : Operand) : exec (.upPush w) s =
    .next (((s.writeUp (unpackStep 5 16 (s.up.count.toNat - s.up.emitted.toNat) s.up.residue w.toNat).2).writeEmitted
      (BitVec.ofNat 16 (s.up.emitted.toNat +
        (unpackStep 5 16 (s.up.count.toNat - s.up.emitted.toNat) s.up.residue w.toNat).1.length))).emitUp
      (unpackStep 5 16 (s.up.count.toNat - s.up.emitted.toNat) s.up.residue w.toNat).1) := by
  simp [exec, execUpPush, Unpacker.done, h]

theorem exec_dcStart (opd : Operand) (s : State) : exec (.dcStart opd) s = .next (s.writeShift 0#1) := rfl

theorem exec_dcPush (d : Operand) (s : State) : exec (.dcPush d) s =
    .next ((s.writeShift (entryNext s.dc.shift (lookup s.tables s.dc.shift d))).emitDc
      (entryOutput (lookup s.tables s.dc.shift d))) := rfl

/-- Every command answers a next state in which only its own unit's registers and stream may differ, the stream by
appended values (R26, R41, R110). -/
theorem exec_next (i : Instr) (s : State) : ∃ t, exec i s = .next t ∧
    t.tables = s.tables ∧ t.pending = s.pending ∧
    (∃ ws, t.pkOut = s.pkOut ++ ws ∧ (i.unit ≠ .pk → t.pk = s.pk ∧ ws = [])) ∧
    (∃ cs, t.upOut = s.upOut ++ cs ∧ (i.unit ≠ .up → t.up = s.up ∧ cs = [])) ∧
    (∃ xs, t.dcOut = s.dcOut ++ xs ∧ (i.unit ≠ .dc → t.dc = s.dc ∧ xs = [])) := by
  cases i with
  | pkStart opd => exact ⟨_, exec_pkStart opd s, by simp [Instr.unit]⟩
  | pkPush d => exact ⟨_, exec_pkPush d s, by simp [Instr.unit]⟩
  | pkFlush opd => exact ⟨_, exec_pkFlush opd s, by simp [Instr.unit]⟩
  | upStart n => exact ⟨_, exec_upStart n s, by simp [Instr.unit]⟩
  | upPush w =>
    by_cases h : s.up.emitted = s.up.count
    · exact ⟨_, exec_upPush_done h w, by simp [Instr.unit]⟩
    · exact ⟨_, exec_upPush h w, by simp [Instr.unit]⟩
  | dcStart opd => exact ⟨_, exec_dcStart opd s, by simp [Instr.unit]⟩
  | dcPush d => exact ⟨_, exec_dcPush d s, by simp [Instr.unit]⟩

/-- PK.PUSH on the registers is the per-code step on the residue, exactly (R63). -/
theorem pkPush_residue {s : State} (h : s.pk.Inv) (d : Operand) :
    (s.writePk (packStep 5 16 s.pk.residue d.toNat).2).pk.residue = (packStep 5 16 s.pk.residue d.toNat).2 ∧
    (s.writePk (packStep 5 16 s.pk.residue d.toNat).2).pk.Inv := by
  have hf : (packStep 5 16 s.pk.residue d.toNat).2.Fits := packStep_fits 5 16 _ h.2
  have hh : (packStep 5 16 s.pk.residue d.toNat).2.held ≤ 15 := by
    rw [packStep_held (by omega)]; omega
  have e := Packer.residue_ofNat (by omega) hf
  exact ⟨e, by rw [Packer.inv_iff]; simp only [State.writePk_pk, e]; exact ⟨hh, hf⟩⟩

/-- UP.PUSH on the registers, when not done, is the per-word step on the residue, exactly (R74). -/
theorem upPush_residue {s : State} (h : s.up.Inv) (hd : s.up.emitted ≠ s.up.count) (w : Operand) (c e : BitVec 16) :
    let r := (unpackStep 5 16 (s.up.count.toNat - s.up.emitted.toNat) s.up.residue w.toNat).2
    (Unpacker.mk (BitVec.ofNat 20 r.acc) (BitVec.ofNat 5 r.held) c e).residue = r ∧ r.Fits ∧ r.held ≤ 15 := by
  obtain ⟨hle, hf, h4, -⟩ := h
  have hlt : s.up.emitted.toNat < s.up.count.toNat := by
    rcases Nat.lt_or_eq_of_le hle with h | h
    · exact h
    · exact absurd (BitVec.eq_of_toNat_eq h) hd
  have hf' := unpackStep_fits (S := 5) (w := w.toNat) w.isLt (s.up.count.toNat - s.up.emitted.toNat) (r := s.up.residue) hf
  have hh := unpackStep_held 5 16 w.toNat (s.up.count.toNat - s.up.emitted.toNat) s.up.residue
  have hl := unpackStep_length (S := 5) (by omega) 16 w.toNat (s.up.count.toNat - s.up.emitted.toNat) s.up.residue
  have h4' : s.up.residue.held ≤ 4 := h4 hlt
  intro r
  have hr : r.held ≤ 15 := by
    change (unpackStep 5 16 _ _ _).2.held ≤ 15
    omega
  exact ⟨Unpacker.residue_ofNat c e (by omega) hf', hf', hr⟩

/-! Sequences. -/

@[simp] theorem execAll_nil (s : State) : execAll [] s = .next s := rfl

theorem execAll_cons {i : Instr} {s t : State} (h : exec i s = .next t) (is : List Instr) :
    execAll (i :: is) s = execAll is t := by
  simp [execAll, h]

theorem execAll_append {is : List Instr} {s t : State} (h : execAll is s = .next t) (js : List Instr) :
    execAll (is ++ js) s = execAll js t := by
  induction is generalizing s with
  | nil => simp only [execAll_nil, Host.Outcome.next.injEq] at h; simp [h]
  | cons i is ih =>
    obtain ⟨u, hu, -⟩ := exec_next i s
    rw [execAll_cons hu] at h
    rw [List.cons_append, execAll_cons hu, ih h]

/-- A sequence of commands answers a next state. -/
theorem execAll_next (is : List Instr) (s : State) : ∃ t, execAll is s = .next t := by
  induction is generalizing s with
  | nil => exact ⟨s, rfl⟩
  | cons i is ih =>
    obtain ⟨u, hu, -⟩ := exec_next i s
    obtain ⟨t, ht⟩ := ih u
    exact ⟨t, by rw [execAll_cons hu, ht]⟩

/-! The step. -/

theorem step_idle {s : State} (h : s.pending = []) : step s = .next s := by
  simp [step, takeInput_nil h, execIdle]

theorem step_reset {s : State} {rest : List HostInput} (h : s.pending = .reset :: rest) :
    step s = .next (applyReset { s with pending := rest }) := by
  simp [step, takeInput_cons h]

theorem step_command {s : State} {w : CommandWord} {rest : List HostInput} {i : Instr}
    (h : s.pending = .command w :: rest) (hi : decode w = .ok i) : step s = exec i { s with pending := rest } := by
  simp [step, takeInput_cons h, hi]

theorem step_reserved {s : State} {w : CommandWord} {rest : List HostInput} {r : DecodeReject}
    (h : s.pending = .command w :: rest) (hr : decode w = .error r) : step s = .next { s with pending := rest } := by
  simp [step, takeInput_cons h, hr, execReserved]

/-- Everything a step can do. -/
theorem step_cases (s : State) :
    (s.pending = [] ∧ step s = .next s) ∨
    (∃ rest, s.pending = .reset :: rest ∧ step s = .next (applyReset { s with pending := rest })) ∨
    (∃ w rest i, s.pending = .command w :: rest ∧ decode w = .ok i ∧ step s = exec i { s with pending := rest }) ∨
    (∃ w rest r, s.pending = .command w :: rest ∧ decode w = .error r ∧ step s = .next { s with pending := rest }) := by
  rcases hp : s.pending with _ | ⟨_ | _, rest⟩
  · exact .inl ⟨rfl, step_idle hp⟩
  · rename_i w
    rcases hd : decode w with r | i
    · exact .inr (.inr (.inr ⟨w, rest, r, rfl, hd, step_reserved hp hd⟩))
    · exact .inr (.inr (.inl ⟨w, rest, i, rfl, hd, step_command hp hd⟩))
  · exact .inr (.inl ⟨rest, rfl, step_reset hp⟩)

end Sys2Proof.Machine
end

