-- ==== Sys2Proof/Laws/PerInstr.lean ====
section
/-! SUPPORT. The family EncodesDefinedOpc: the encoding of every command is a word that is not reserved (R52, R54),
one lemma per constructor. -/

namespace Sys2Proof.Laws.EncodesDefinedOpc

/-- The encoding is well formed as a word, and its operation code field is the command's own. -/
def Statement (i : Instr) : Prop :=
  wordWellFormed (encode i) = true ∧ opcField (encode i) = i.opc

/-- A command whose operation code is defined satisfies the statement. -/
theorem statement_of_definedOpc (i : Instr) (h : definedOpc i.opc = true) : Statement i :=
  ⟨by change definedOpc (opcField (encode i)) = true; simpa [encode] using h, by simp [encode]⟩

theorem pkStart (opd : Operand) : Statement (.pkStart opd) := statement_of_definedOpc _ (by rfl)
theorem pkPush (d : Operand) : Statement (.pkPush d) := statement_of_definedOpc _ (by rfl)
theorem pkFlush (opd : Operand) : Statement (.pkFlush opd) := statement_of_definedOpc _ (by rfl)
theorem upStart (n : Operand) : Statement (.upStart n) := statement_of_definedOpc _ (by rfl)
theorem upPush (w : Operand) : Statement (.upPush w) := statement_of_definedOpc _ (by rfl)
theorem dcStart (opd : Operand) : Statement (.dcStart opd) := statement_of_definedOpc _ (by rfl)
theorem dcPush (d : Operand) : Statement (.dcPush d) := statement_of_definedOpc _ (by rfl)

end Sys2Proof.Laws.EncodesDefinedOpc
end

