-- ==== Sys2Proof/Tests/Slice0.lean ====
section
/-! SUPPORT. The model's own tests: expected values are those of spec/95_test_vectors.md (vector ids in the names) and
of the rules' worked examples; and, for every statement with hypotheses, a witness that meets them. -/

namespace Sys2Proof.Tests

open Sys2Proof Sys2Proof.Machine

/-- The Letters half of the example table EX of spec/95_test_vectors.md section 4. -/
def exLetters : Vector EntryBits 32 :=
  #v[0x300#10, 0x145#10, 0x10A#10, 0x141#10, 0x120#10, 0x153#10, 0x149#10, 0x155#10,
     0x10D#10, 0x144#10, 0x152#10, 0x14A#10, 0x14E#10, 0x146#10, 0x143#10, 0x14B#10,
     0x154#10, 0x15A#10, 0x14C#10, 0x157#10, 0x148#10, 0x159#10, 0x150#10, 0x151#10,
     0x14F#10, 0x142#10, 0x147#10, 0x201#10, 0x14D#10, 0x158#10, 0x156#10, 0x200#10]

/-- The Figures half of the example table EX. -/
def exFigures : Vector EntryBits 32 :=
  #v[0x300#10, 0x133#10, 0x10A#10, 0x12D#10, 0x120#10, 0x127#10, 0x138#10, 0x137#10,
     0x10D#10, 0x105#10, 0x134#10, 0x107#10, 0x12C#10, 0x000#10, 0x13A#10, 0x128#10,
     0x135#10, 0x12B#10, 0x129#10, 0x132#10, 0x000#10, 0x136#10, 0x130#10, 0x131#10,
     0x139#10, 0x13F#10, 0x000#10, 0x201#10, 0x12E#10, 0x12F#10, 0x13D#10, 0x200#10]

/-- The example table EX: test data, not part of the hardware. -/
def exTables : TableRom := exLetters ++ exFigures

/-- A state with given packer registers. -/
def pkState (acc : BitVec 20) (held : BitVec 5) : State :=
  { State.reset with pk := { acc := acc, held := held } }

/-- A state with given unpacker registers. -/
def upState (acc : BitVec 20) (held : BitVec 5) (count emitted : BitVec 16) : State :=
  { State.reset with up := { acc := acc, held := held, count := count, emitted := emitted } }

/-- A state with a given decoder register and the tables EX. -/
def dcState (shift : BitVec 1) : State :=
  { State.reset with dc := { shift := shift }, tables := exTables }

/-- A part of the next state of an outcome. -/
def nextPart {α : Type} (f : State → α) (o : Host.Outcome State Fault Refusal) : Option α :=
  match o with
  | .next t => some (f t)
  | .fault _ => none
  | .refused _ => none

/-! Parameters (R6). -/

theorem test_accumulator_width : Config.AW = 20 := by decide
theorem test_held_width : 2 ^ (Config.HW - 1) < Config.W + Config.S ∧ Config.W + Config.S ≤ 2 ^ Config.HW := by decide

/-! Well-formedness: each check refuses an ill-formed term. -/

theorem test_wf_word_reserved : wordWellFormed 0x7F1234#24 = false ∧ wordWellFormed 0x000000#24 = false ∧
    wordWellFormed 0x130000#24 = false := by decide
theorem test_wf_word_defined : wordWellFormed 0x12FFFF#24 = true := by decide
theorem test_wf_canonical_refuses : (Instr.pkStart 1#16).canonical = false ∧ (Instr.pkFlush 1#16).canonical = false ∧
    (Instr.dcStart 1#16).canonical = false := by decide
theorem test_wf_widths_refuses : widthsWellFormed 0 16 = false ∧ widthsWellFormed 5 0 = false := by decide

/-! Decoding: words written out bit by bit from R51 and R52 (OPC, then OPD). -/

theorem test_decode_pkStart : decode 0b000100000000000000000000#24 = .ok (.pkStart 0#16) := by decide
theorem test_decode_pkPush : decode 0b000100010000000000101101#24 = .ok (.pkPush 45#16) := by decide
theorem test_decode_pkFlush : decode 0b000100101000000000000001#24 = .ok (.pkFlush 0x8001#16) := by decide
theorem test_decode_upStart : decode 0b001000000000000000001001#24 = .ok (.upStart 9#16) := by decide
theorem test_decode_upPush : decode 0b001000011000000001001011#24 = .ok (.upPush 0x804B#16) := by decide
theorem test_decode_dcStart : decode 0b001100000000000000000000#24 = .ok (.dcStart 0#16) := by decide
theorem test_decode_dcPush : decode 0b001100010000000000011011#24 = .ok (.dcPush 27#16) := by decide
theorem test_decode_reserved : decode 0x7F1234#24 = .error (.reservedOpc 0x7F#8) := by decide
theorem test_encode_upStart : encode (.upStart 9#16) = 0x200009#24 := by decide
theorem test_decodeTableWord : decodeTableWord 24 0x310010 = some (.dcPush 16#16) ∧ decodeTableWord 24 0x320010 = none := by
  decide

/-! The packer (V-PK-n). -/

theorem test_pkStart_v17 : nextPart (fun t => (t.pk, t.pkOut)) (exec (.pkStart 0#16) (pkState 0x01E61#20 13#5)) =
    some (⟨0#20, 0#5⟩, []) := by decide
theorem test_pkPush_v16 : nextPart (fun t => (t.pk, t.pkOut)) (exec (.pkPush 0x0010#16) (pkState 0x04025#20 15#5)) =
    some (⟨0x00000#20, 4#5⟩, [0x804B#16]) := by decide
theorem test_pkPush_v8 : nextPart (fun t => (t.pk, t.pkOut)) (exec (.pkPush 0xFFE1#16) (pkState 0x00001#20 1#5)) =
    some (⟨0x00021#20, 6#5⟩, []) := by decide
theorem test_pkFlush_v14 : nextPart (fun t => (t.pk, t.pkOut)) (exec (.pkFlush 0#16) (pkState 0x01E61#20 13#5)) =
    some (⟨0#20, 0#5⟩, [0xF308#16]) := by decide
theorem test_pkFlush_v10 : nextPart (fun t => (t.pk, t.pkOut)) (exec (.pkFlush 0#16) (pkState 0#20 0#5)) =
    some (⟨0#20, 0#5⟩, []) := by decide

/-! The unpacker (V-UP-n). -/

theorem test_upStart_v1 : nextPart (fun t => (t.up, t.upOut)) (exec (.upStart 9#16) (upState 0x3F#20 6#5 2#16 2#16)) =
    some (⟨0#20, 0#5, 9#16, 0#16⟩, []) := by decide
theorem test_upPush_v3 : nextPart (fun t => (t.up, t.upOut)) (exec (.upPush 0x026E#16) (upState 1#20 1#5 9#16 3#16)) =
    some (⟨2#20, 2#5, 9#16, 6#16⟩, [0x10#5, 0x04#5, 0x1B#5]) := by decide
theorem test_upPush_v10 :
    nextPart (fun t => (t.up, t.upOut)) (exec (.upPush 0xABCD#16) (upState 5#20 3#5 65535#16 65534#16)) =
      some (⟨0x02BCD#20, 14#5, 65535#16, 65535#16⟩, [0x16#5]) := by decide

/-! The decoder (V-DC-n). -/

theorem test_dcStart_v13 : nextPart (fun t => (t.dc, t.dcOut)) (exec (.dcStart 0#16) (dcState 1#1)) =
    some (⟨0#1⟩, []) := by decide
theorem test_dcPush_v2 : nextPart (fun t => (t.dc, t.dcOut)) (exec (.dcPush 0x001B#16) (dcState 0#1)) =
    some (⟨1#1⟩, []) := by decide
theorem test_dcPush_v4 : nextPart (fun t => (t.dc, t.dcOut)) (exec (.dcPush 0x000D#16) (dcState 1#1)) =
    some (⟨1#1⟩, [0x3F#8]) := by decide

/-! The step (V-X-n). -/

/-- The start state of the vectors V-X-1 to V-X-4, with one host input pending. -/
def xState (input : HostInput) : State :=
  { State.reset with
    pk := ⟨0x00443#20, 15#5⟩, up := ⟨0x3F#20, 6#5, 2#16, 2#16⟩, dc := ⟨1#1⟩, pending := [input] }

theorem test_step_reserved_x1 :
    nextPart (fun t => (t.pk, t.up, t.dc, t.pending)) (step (xState (.command 0x7F1234#24))) =
      some (⟨0x00443#20, 15#5⟩, ⟨0x3F#20, 6#5, 2#16, 2#16⟩, ⟨1#1⟩, []) := by decide
theorem test_step_reset_x4 : nextPart (fun t => (t.pk, t.up, t.dc, t.pending)) (step (xState .reset)) =
    some (⟨0#20, 0#5⟩, ⟨0#20, 0#5, 0#16, 0#16⟩, ⟨0#1⟩, []) := by decide
theorem test_first_step_after_reset :
    nextPart (fun t => (t.pk, t.pending)) (step (State.reset.withFetchWord 24 0x11001F)) =
      some (⟨0x1F#20, 5#5⟩, []) := by decide
theorem test_first_step_dcPush : nextPart (fun t => (t.pk, t.pending)) (step (State.reset.withFetchWord 24 0x310010)) =
    some (⟨0#20, 0#5⟩, []) := by decide

/-! Other widths (V-W-n), host link, assembler. -/

theorem test_widths_w1 : packWith 5 8 [0x01, 0x02, 0x03] = [0x08, 0x86] := by decide
theorem test_widths_w2 : packWith 17 4 [0x1ABCD] = [0xD, 0x5, 0xE, 0x6, 0x8] := by decide
theorem test_widths_w3 : packWith 5 3 [0x15, 0x0A] = [5, 2, 5, 0] := by decide
theorem test_widths_w4 : packWith 5 5 [0x15, 0x0A, 0x1F] = [0x15, 0x0A, 0x1F] := by decide
theorem test_bytes : wordToBytes .big 0x804B#16 = [0x80#8, 0x4B#8] ∧ wordToBytes .little 0x804B#16 = [0x4B#8, 0x80#8] := by
  decide
theorem test_asm_blank : assembleLine "  ; a comment".toList = .ok [] := by decide
theorem test_asm_malformed : assembleLine "PK.PULL 1".toList = .error .unknownMnemonic ∧
    assembleLine "PK.PUSH".toList = .error .badOperands ∧ assembleLine "PACK 1 2".toList = .error .badOperands := by decide
theorem test_asm_digits : assembleLine "UP.PUSH 0xaF".toList = .ok [.command 0x2100AF#24] ∧
    assembleLine "UP.PUSH 0b12".toList = .error .badOperands ∧ assembleLine "UP.PUSH 0x".toList = .error .badOperands := by
  decide
theorem test_asm_negative : assembleLine "DC.PUSH -1".toList = .ok [.command 0x31FFFF#24] ∧
    assembleLine "UP.PUSH -65535".toList = .ok [.command 0x210001#24] ∧
    assembleLine "PK.PUSH -".toList = .error .badOperands := by decide
theorem test_asm_program : assemble ["PK.START".toList, "; nothing".toList, "RESET".toList] =
    .ok [.command 0x100000#24, .reset] := by decide

/-! Witnesses: the hypotheses of each statement are met together, at the boundaries of its clauses. -/

theorem witness_OperandBitsUsed : (0x002D#16).extractLsb' 0 5 = (0x000D#16).extractLsb' 0 5 := by decide
theorem witness_StepRunsTheDecodedCommand : (xState (.command 0x11002D#24)).pending = .command 0x11002D#24 :: [] ∧
    decode 0x11002D#24 = .ok (.pkPush 45#16) ∧ decodeTableWord 24 0x11002D = some (.pkPush 45#16) := by decide
theorem witness_ReservedWordIsNoOperation : (xState (.command 0x7F1234#24)).pending = .command 0x7F1234#24 :: [] ∧
    wordWellFormed 0x7F1234#24 = false := by decide
theorem witness_DecodeFollowsTheOpcodeMap_edges : [0x0FFFFF#24, 0x130000#24, 0x1FFFFF#24, 0x220000#24, 0x2FFFFF#24,
    0x320000#24, 0xFF0000#24].all (fun w => !wordWellFormed w) = true := by decide
theorem witness_NothingPendingIdles : State.reset.pending = [] := rfl
theorem witness_ResetEventWritesEveryRegister : (xState .reset).pending = .reset :: [] := rfl
theorem witness_PendingCommandsRunInOrder : ((xState .reset).issue []).pending = [].map HostInput.ofInstr ++ [.reset] ∧
    (xState (.command 0x11002D#24)).pending = [Instr.pkPush 45#16].map HostInput.ofInstr ++ [] := by decide
theorem witness_StepKeepsTheInvariants : (xState (.command 0x11002D#24)).Inv ∧
    ∃ t, step (xState (.command 0x11002D#24)) = .next t := ⟨by decide, _, rfl⟩
theorem witness_TableRomIsNeverWritten : ∃ t, step (xState .reset) = .next t := ⟨_, rfl⟩
theorem witness_StreamsOnlyGrow : ∃ t, step (xState (.command 0x120000#24)) = .next t := ⟨_, rfl⟩
theorem witness_PkPushAppendsACode : (pkState 0x3FF#20 10#5).pk.Inv ∧ (pkState 0x7FF#20 11#5).pk.Inv ∧
    (pkState 0x7FFF#20 15#5).pk.Inv ∧ (pkState 0#20 0#5).pk.Inv := by decide
theorem witness_PkFlushEmitsTheResidue : (pkState 0#20 0#5).pk.Inv ∧ (pkState 1#20 1#5).pk.Inv ∧
    (pkState 0x7FFF#20 15#5).pk.Inv := by decide
theorem witness_WordsPerPush : (pkState 0x7FFF#20 15#5).pk.Inv ∧ State.reset.pk = ⟨0#20, 0#5⟩ := by decide
theorem witness_UpPushExtractsCodes_running : (upState 0xF#20 4#5 100#16 0#16).up.Inv ∧
    (upState 5#20 3#5 65535#16 65534#16).up.Inv ∧ (65534#16 : BitVec 16) ≠ 65535#16 := by decide
theorem witness_UpPushExtractsCodes_done : (upState 0x7FFF#20 15#5 1#16 1#16).up.Inv ∧
    (upState 0x7FFF#20 15#5 1#16 1#16).up.emitted = (upState 0x7FFF#20 15#5 1#16 1#16).up.count := by decide
theorem witness_UpPushWhenDoneIsDiscarded : State.reset.up.emitted = State.reset.up.count := by decide
theorem witness_UnpackerNeedsAStart : (pkState 1#20 1#5).up = State.reset.up := by decide
theorem witness_DcPushFollowsTheEntry :
    ((exTables[45]).extractLsb' 8 2 = 0b00#2) ∧ ((exTables[16]).extractLsb' 8 2 = 0b01#2) ∧
    ((exTables[27]).extractLsb' 8 2 = 0b10#2) ∧ ((exTables[32]).extractLsb' 8 2 = 0b11#2) := by decide
theorem witness_OnlyStartsShiftEntriesAndResetChangeTheState_push : ∃ t,
    exec (.dcPush 0x1B#16) (dcState 0#1) = .next t ∧ t.dc.shift ≠ (dcState 0#1).dc.shift := ⟨_, rfl, by decide⟩
theorem witness_OnlyStartsShiftEntriesAndResetChangeTheState_start : ∃ t,
    exec (.dcStart 1#16) (dcState 1#1) = .next t ∧ t.dc.shift ≠ (dcState 1#1).dc.shift := ⟨_, rfl, by decide⟩
theorem witness_OnlyStartsShiftEntriesAndResetChangeTheState_step :
    [.reset, .command 0x300000#24, .command 0x31001F#24].all (fun input =>
      nextPart (fun t => t.dc.shift) (step ((dcState 1#1).issue [input])) = some 0#1) = true := by decide
theorem witness_CommandsLeaveOtherUnitsAlone : (∃ t, exec (.upPush 0xFFFF#16) (upState 0#20 0#5 2#16 0#16) = .next t) ∧
    (Instr.upPush 0xFFFF#16).unit ≠ .pk ∧ (Instr.upPush 0xFFFF#16).unit ≠ .dc ∧ (Instr.pkPush 1#16).unit ≠ .up :=
  ⟨⟨_, rfl⟩, by decide, by decide, by decide⟩
theorem witness_UnitsCommute : (Instr.pkPush 1#16).unit ≠ (Instr.upPush 1#16).unit := by decide
theorem witness_OutputsPerCommandAreBounded : (xState .reset).Inv := by decide
theorem witness_PackedBitPositions : packWith 5 16 [0x1F, 0x00, 0x1F, 0x00] = [0xF83E, 0x0000] ∧
    5 * 3 + 0 = 16 * 0 + 15 ∧ 5 * 3 + 1 = 16 * 1 + 0 ∧ 4 * 5 ≤ 16 * 1 + 4 := by decide
theorem witness_UnpackIgnoresLaterBits : [0xFFFF#16].length = [0xFFFE#16].length ∧
    (wordStream [0xFFFF#16]).take (min (3#16).toNat (1 * 16 / 5) * 5) =
      (wordStream [0xFFFE#16]).take (min (3#16).toNat (1 * 16 / 5) * 5) := by decide
theorem witness_PackThenUnpackGivesTheCodes : [0x002D#16, 0x1170#16, 0xFFFF#16].length ≤ 65535 := by decide
theorem witness_TestMessageSurvivesThePipeline : (dcState 1#1).tables = exTables ∧
    exTables[(0x10#5).toNat]? = some 0x154#10 ∧ exTables[(0x01#5).toNat]? = some 0x145#10 ∧
    exTables[(0x05#5).toNat]? = some 0x153#10 ∧ exTables[(0x04#5).toNat]? = some 0x120#10 ∧
    exTables[(0x1B#5).toNat]? = some 0x201#10 ∧ (0x201#10).extractLsb' 8 2 = 0b10#2 ∧ (0x201#10).getLsbD 0 = true ∧
    exTables[32 + (0x17#5).toNat]? = some 0x131#10 ∧ exTables[32 + (0x13#5).toNat]? = some 0x132#10 ∧
    exTables[32 + (0x01#5).toNat]? = some 0x133#10 := by decide
theorem witness_InvocationsAreStateless : (dcState 1#1).tables = exTables := rfl
theorem witness_RegistersAreWideEnough : (pkState 0x7FFF#20 15#5).pk.Inv ∧ (upState 0xF#20 4#5 100#16 0#16).up.Inv ∧
    (upState 0xF#20 4#5 100#16 0#16).up.emitted ≠ (upState 0xF#20 4#5 100#16 0#16).up.count := by decide
theorem witness_ByteOrderMustMatch : ByteOrder.big ≠ ByteOrder.little ∧
    (0x4B4B#16).extractLsb' 8 8 = (0x4B4B#16).extractLsb' 0 8 ∧
    (0x804B#16).extractLsb' 8 8 ≠ (0x804B#16).extractLsb' 0 8 := by decide
theorem witness_PackAtEveryWidth : widthsWellFormed 1 1 = true ∧ widthsWellFormed 17 4 = true := by decide
theorem witness_UnpackAtEveryWidth : widthsWellFormed 5 16 = true ∧ ∀ v ∈ [0x804B, 0xFFFF], v < 2 ^ 16 := by decide

end Sys2Proof.Tests
end

/-! PROOFS. The whole-sequence packer and unpacker on unbounded naturals (R90, R96), for every pair of widths and from
every starting residue, and the statements of R7 that follow. -/

namespace Sys2Proof.Machine

theorem widthsWellFormed_iff {S W : Nat} : widthsWellFormed S W = true ↔ 0 < S ∧ 0 < W := by
  simp [widthsWellFormed, Nat.one_le_iff_ne_zero, Nat.pos_iff_ne_zero]

@[simp] theorem Residue.bits_length (r : Residue) : r.bits.length = r.held :=
  msbBits_length _ _

/-- Less than one unit of padding makes the count of units the rounded-up quotient. -/
theorem eq_ceilDiv {a b k p : Nat} (hp : p < b) (h : k * b = a + p) : k = ceilDiv a b := by
  refine (Nat.div_eq_of_lt_le ?_ ?_).symm
  · omega
  · rw [Nat.succ_mul]; omega

theorem le_ceilDiv_mul {b : Nat} (hb : 0 < b) (a : Nat) : a ≤ ceilDiv a b * b := by
  have h := Nat.div_add_mod' (a + b - 1) b
  have hlt := Nat.mod_lt (a + b - 1) hb
  unfold ceilDiv
  omega

/-! The packer. -/

/-- The termination step pads by less than one word (R62). -/
theorem packFinish_layout {W : Nat} {r : Residue} (h : r.held < W) :
    ∃ p < W, streamBits W (packFinish W r) = r.bits ++ List.replicate p false := by
  refine ⟨_, ?_, packFinish_bits h.le⟩
  rw [packFinish_length]
  split <;> omega

/-- The words of a PACK carry the bits held, the masked codes' bits and less than one word of zero bits (R91, R93). -/
theorem packFrom_layout (S : Nat) {W : Nat} (hW : 0 < W) (codes : List Nat) {r : Residue} (hr : r.held < W) :
    ∃ p < W, streamBits W (packFrom S W r codes) =
      r.bits ++ streamBits S (codes.map (maskTo S)) ++ List.replicate p false := by
  induction codes generalizing r with
  | nil => simpa [packFrom] using packFinish_layout hr
  | cons c codes ih =>
    have hr' : (packStep S W r c).2.held < W := by rw [packStep_held hW]; exact Nat.mod_lt _ hW
    obtain ⟨p, hp, hbits⟩ := ih hr'
    have hmask : msbBits S (maskTo S c) = msbBits S c := msbBits_mod le_rfl c
    refine ⟨p, hp, ?_⟩
    calc streamBits W (packFrom S W r (c :: codes))
        = streamBits W (packStep S W r c).1 ++ (packStep S W r c).2.bits ++
            (streamBits S (codes.map (maskTo S)) ++ List.replicate p false) := by simp [packFrom, hbits]
      _ = _ := by rw [packStep_bits]; simp [hmask]

theorem packFrom_lt (S W : Nat) (r : Residue) (codes : List Nat) : ∀ v ∈ packFrom S W r codes, v < 2 ^ W := by
  induction codes generalizing r with
  | nil => exact packFinish_lt W r
  | cons c codes ih =>
    intro v hv
    rcases List.mem_append.1 hv with hv | hv
    · exact packStep_lt S W r c v hv
    · exact ih _ v hv

theorem packWith_lt (S W : Nat) (codes : List Nat) : ∀ v ∈ packWith S W codes, v < 2 ^ W :=
  packFrom_lt S W .empty codes

theorem packWith_layout (S : Nat) {W : Nat} (hW : 0 < W) (codes : List Nat) :
    ∃ p < W, streamBits W (packWith S W codes) =
      streamBits S (codes.map (maskTo S)) ++ List.replicate p false := by
  simpa [packWith] using packFrom_layout S hW codes (r := .empty) hW

/-- `pack` answers `ceil(n * S / W)` words (R91). -/
theorem packWith_length (S : Nat) {W : Nat} (hW : 0 < W) (codes : List Nat) :
    (packWith S W codes).length = ceilDiv (codes.length * S) W := by
  obtain ⟨p, hp, hbits⟩ := packWith_layout S hW codes
  exact eq_ceilDiv hp (by simpa using congrArg List.length hbits)

/-- The stream of `pack`, with the pad bits counted (R91, R93). -/
theorem packWith_bits (S : Nat) {W : Nat} (hW : 0 < W) (codes : List Nat) :
    streamBits W (packWith S W codes) = streamBits S (codes.map (maskTo S)) ++
      List.replicate ((packWith S W codes).length * W - codes.length * S) false := by
  obtain ⟨p, -, hbits⟩ := packWith_layout S hW codes
  have hlen : (packWith S W codes).length * W = codes.length * S + p := by
    simpa using congrArg List.length hbits
  rw [hbits, hlen, Nat.add_sub_cancel_left]

/-! The unpacker. -/

@[simp] theorem unpackFrom_none_remaining (S W : Nat) (r : Residue) (words : List Nat) :
    unpackFrom S W 0 r words = [] := by
  induction words with
  | nil => rfl
  | cons w words ih => simpa [unpackFrom] using ih

theorem unpackFrom_cons (S W : Nat) {remaining : Nat} (h : remaining ≠ 0) (r : Residue) (w : Nat) (words : List Nat) :
    unpackFrom S W remaining r (w :: words) = (unpackStep S W remaining r w).1 ++
      unpackFrom S W (remaining - (unpackStep S W remaining r w).1.length) (unpackStep S W remaining r w).2 words := by
  simp [unpackFrom, h]

/-- `unpack` answers every whole code the bits hold, up to the number asked for (R97). -/
theorem unpackFrom_length {S : Nat} (hS : 0 < S) (W remaining : Nat) {r : Residue} (hr : r.held < S)
    (words : List Nat) :
    (unpackFrom S W remaining r words).length = min remaining ((r.held + words.length * W) / S) := by
  induction words generalizing remaining r with
  | nil => simp [unpackFrom, Nat.div_eq_of_lt hr]
  | cons w words ih =>
    by_cases h0 : remaining = 0
    · simp [h0]
    · have hk := unpackStep_length hS W w remaining r
      have hheld := unpackStep_held S W w remaining r
      rw [unpackFrom_cons S W h0]
      generalize unpackStep S W remaining r w = out at hk hheld ⊢
      -- `out.1.length` codes come off the front of the bits still to be read
      have htotal : r.held + (words.length + 1) * W = out.2.held + words.length * W + S * out.1.length := by
        rw [Nat.succ_mul, Nat.mul_comm S]; omega
      rw [List.length_append, List.length_cons, htotal, Nat.add_mul_div_left _ _ hS]
      rcases Nat.lt_or_ge ((r.held + W) / S) remaining with hlt | hge
      · have hr' : out.2.held < S := by
          have := Nat.div_add_mod' (r.held + W) S
          have := Nat.mod_lt (r.held + W) hS
          rw [hk, Nat.min_eq_right hlt.le] at hheld
          omega
        rw [ih _ hr']
        omega
      · rw [Nat.min_eq_left hge] at hk
        simp [hk]

/-- The codes' bits are the leading bits of those held and those of the words (R98). -/
theorem unpackFrom_prefix (S W remaining : Nat) (r : Residue) {words : List Nat} (hw : ∀ v ∈ words, v < 2 ^ W) :
    streamBits S (unpackFrom S W remaining r words) <+: r.bits ++ streamBits W words := by
  induction words generalizing remaining r with
  | nil => simp [unpackFrom]
  | cons w words ih =>
    by_cases h0 : remaining = 0
    · simp [h0]
    · obtain ⟨hw0, hws⟩ := List.forall_mem_cons.1 hw
      rw [unpackFrom_cons S W h0, streamBits_append, streamBits_cons, ← List.append_assoc,
        ← unpackStep_bits hw0 remaining r, List.append_assoc, List.prefix_append_right_inj]
      exact ih _ _ hws

theorem unpackFrom_lt (S W remaining : Nat) (r : Residue) (words : List Nat) :
    ∀ v ∈ unpackFrom S W remaining r words, v < 2 ^ S := by
  induction words generalizing remaining r with
  | nil => simp [unpackFrom]
  | cons w words ih =>
    by_cases h0 : remaining = 0
    · simp [h0]
    · rw [unpackFrom_cons S W h0]
      intro v hv
      rcases List.mem_append.1 hv with hv | hv
      · exact unpackStep_lt S W w remaining r v hv
      · exact ih _ _ v hv

theorem unpackWith_lt (S W n : Nat) (words : List Nat) : ∀ v ∈ unpackWith S W n words, v < 2 ^ S :=
  unpackFrom_lt S W n .empty words

theorem unpackWith_length {S : Nat} (hS : 0 < S) (W n : Nat) (words : List Nat) :
    (unpackWith S W n words).length = min n (words.length * W / S) := by
  simpa [unpackWith] using unpackFrom_length hS W n (r := .empty) hS words

theorem unpackWith_bits (S W n : Nat) {words : List Nat} (hw : ∀ v ∈ words, v < 2 ^ W) :
    streamBits S (unpackWith S W n words) =
      (streamBits W words).take ((unpackWith S W n words).length * S) := by
  simpa [unpackWith] using List.prefix_iff_eq_take.1 (unpackFrom_prefix S W n .empty hw)

/-- The packed words hold at least the `n` codes that went in, so unpacking `n` reaches all of them (R99). -/
theorem unpackWith_packWith_length {S W : Nat} (hS : 0 < S) (hW : 0 < W) (codes : List Nat) :
    (unpackWith S W codes.length (packWith S W codes)).length = codes.length := by
  rw [unpackWith_length hS, packWith_length S hW]
  exact Nat.min_eq_left ((Nat.le_div_iff_mul_le hS).2 (le_ceilDiv_mul hW _))

/-- Round trip (R99): the packed stream starts with the masked codes' bits, which determine them. -/
theorem unpackWith_packWith {S W : Nat} (hS : 0 < S) (hW : 0 < W) (codes : List Nat) :
    unpackWith S W codes.length (packWith S W codes) = codes.map (maskTo S) := by
  have hlen := unpackWith_packWith_length hS hW codes
  have hmask : ∀ v ∈ codes.map (maskTo S), v < 2 ^ S := List.forall_mem_map.2 fun v _ => maskTo_lt S v
  refine streamBits_inj (unpackWith_lt S W _ _) hmask (by simpa using hlen) ?_
  rw [unpackWith_bits S W _ (packWith_lt S W codes), hlen, packWith_bits S hW]
  exact List.take_left' (by simp)

/-! The statements. -/

/-- Settles O46, from one induction over the codes with an arbitrary starting residue. -/
theorem packAtEveryWidth : Obligations.PackAtEveryWidth := by
  intro S W codes hwf
  obtain ⟨-, hW⟩ := widthsWellFormed_iff.1 hwf
  exact ⟨packWith_length S hW codes, packWith_bits S hW codes, packWith_lt S W codes⟩

/-- Settles O47, by inductions over the words with an arbitrary starting residue; the round trip compares streams. -/
theorem unpackAtEveryWidth : Obligations.UnpackAtEveryWidth := by
  intro S W hwf
  obtain ⟨hS, hW⟩ := widthsWellFormed_iff.1 hwf
  exact ⟨fun n words hw => ⟨unpackWith_length hS W n words, unpackWith_bits S W n hw⟩, unpackWith_packWith hS hW⟩

end Sys2Proof.Machine

/-! PROOFS. What every command and every step keep (spec/10_state.md): the frame, the streams, the ROM, the invariants
and the decoder state; and what the three pseudo-instructions append, in terms of the algorithms on unbounded naturals. -/

namespace Sys2Proof.Machine

/-! What a command that answered `t` has left alone, and what a step that answered `t` has done. -/

/-- The frame of every command, read off its answer (R26, R41). -/
theorem exec_frame {i : Instr} {s t : State} (h : exec i s = .next t) :
    t.tables = s.tables ∧ t.pending = s.pending ∧
    (∃ ws, t.pkOut = s.pkOut ++ ws ∧ (i.unit ≠ .pk → t.pk = s.pk ∧ ws = [])) ∧
    (∃ cs, t.upOut = s.upOut ++ cs ∧ (i.unit ≠ .up → t.up = s.up ∧ cs = [])) ∧
    (∃ xs, t.dcOut = s.dcOut ++ xs ∧ (i.unit ≠ .dc → t.dc = s.dc ∧ xs = [])) := by
  obtain ⟨t', ht', hframe⟩ := exec_next i s
  obtain rfl : t = t' := Host.Outcome.next.inj (h.symm.trans ht')
  exact hframe

theorem exec_keeps_pk {i : Instr} {s t : State} (h : exec i s = .next t) (hi : i.unit ≠ .pk) :
    t.pk = s.pk ∧ t.pkOut = s.pkOut := by
  obtain ⟨-, -, ⟨ws, hout, hother⟩, -, -⟩ := exec_frame h
  obtain ⟨hpk, rfl⟩ := hother hi
  exact ⟨hpk, by simpa using hout⟩

theorem exec_keeps_up {i : Instr} {s t : State} (h : exec i s = .next t) (hi : i.unit ≠ .up) :
    t.up = s.up ∧ t.upOut = s.upOut := by
  obtain ⟨-, -, -, ⟨cs, hout, hother⟩, -⟩ := exec_frame h
  obtain ⟨hup, rfl⟩ := hother hi
  exact ⟨hup, by simpa using hout⟩

theorem exec_keeps_dc {i : Instr} {s t : State} (h : exec i s = .next t) (hi : i.unit ≠ .dc) :
    t.dc = s.dc ∧ t.dcOut = s.dcOut := by
  obtain ⟨-, -, -, -, xs, hout, hother⟩ := exec_frame h
  obtain ⟨hdc, rfl⟩ := hother hi
  exact ⟨hdc, by simpa using hout⟩

/-- A step that answered `t` changed the queue at most, applied RESET, or executed the command at the queue's head. -/
theorem step_next_cases {s t : State} (h : step s = .next t) :
    (∃ rest, t = { s with pending := rest }) ∨
    (∃ rest, s.pending = .reset :: rest ∧ t = applyReset { s with pending := rest }) ∨
    (∃ w rest i, s.pending = .command w :: rest ∧ decode w = .ok i ∧
      exec i { s with pending := rest } = .next t) := by
  obtain ⟨-, hs⟩ | ⟨rest, hp, hs⟩ | ⟨w, rest, i, hp, hd, hs⟩ | ⟨w, rest, r, -, -, hs⟩ := step_cases s <;>
    rw [hs] at h
  · exact .inl ⟨s.pending, (Host.Outcome.next.inj h).symm⟩
  · exact .inr (.inl ⟨rest, hp, (Host.Outcome.next.inj h).symm⟩)
  · exact .inr (.inr ⟨w, rest, i, hp, hd, h⟩)
  · exact .inl ⟨rest, (Host.Outcome.next.inj h).symm⟩

/-! The invariants (R13, R18). -/

theorem Unpacker.inv_iff (u : Unpacker) : u.Inv ↔
    u.emitted.toNat ≤ u.count.toNat ∧ u.residue.Fits ∧
    (u.emitted.toNat < u.count.toNat → u.residue.held ≤ 4) ∧ (u.emitted = u.count → u.residue.held ≤ 15) :=
  Iff.rfl

/-- What UP.START leaves meets R18, whatever the count. -/
theorem Unpacker.inv_started (n : BitVec 16) : Unpacker.Inv ⟨0#20, 0#5, n, 0#16⟩ := by
  simp [Unpacker.Inv]

/-- UP.PUSH with `n` codes still to come is the per-word step on the residue, and keeps R18 (R71, R74). -/
theorem exec_upPush_running {s : State} {n : Nat} (h : s.up.Inv) (hn : s.up.emitted.toNat + n = s.up.count.toNat)
    (h0 : n ≠ 0) (w : Operand) {out : List Nat × Residue} (hout : unpackStep 5 16 n s.up.residue w.toNat = out) :
    ∃ u : Unpacker,
      exec (.upPush w) s = .next { s with up := u, upOut := s.upOut ++ out.1.map (BitVec.ofNat 5) } ∧
      u.Inv ∧ u.residue = out.2 ∧ u.count = s.up.count ∧
      u.emitted.toNat = s.up.emitted.toNat + out.1.length := by
  have hne : s.up.emitted ≠ s.up.count := fun he => h0 (by rw [he] at hn; omega)
  obtain rfl : n = s.up.count.toNat - s.up.emitted.toNat := by omega
  have hexec := exec_upPush hne w
  obtain ⟨hres, hfits, h15⟩ :=
    upPush_residue h hne w s.up.count (BitVec.ofNat 16 (s.up.emitted.toNat + out.1.length))
  have hlen := unpackStep_length (S := 5) (by omega) 16 w.toNat (s.up.count.toNat - s.up.emitted.toNat) s.up.residue
  have hheld := unpackStep_held 5 16 w.toNat (s.up.count.toNat - s.up.emitted.toNat) s.up.residue
  rw [hout] at hexec hres hfits h15 hlen hheld
  have hemitted : (BitVec.ofNat 16 (s.up.emitted.toNat + out.1.length)).toNat = s.up.emitted.toNat + out.1.length :=
    Nat.mod_eq_of_lt (by omega)
  generalize BitVec.ofNat 16 (s.up.emitted.toNat + out.1.length) = e at hexec hres hemitted
  refine ⟨⟨BitVec.ofNat 20 out.2.acc, BitVec.ofNat 5 out.2.held, s.up.count, e⟩, hexec, ?_, hres, rfl, hemitted⟩
  rw [Unpacker.inv_iff, hres]
  refine ⟨?_, hfits, fun (hlt : e.toNat < s.up.count.toNat) => ?_, fun _ => h15⟩
  · show e.toNat ≤ s.up.count.toNat
    omega
  · -- codes are still to come, so every whole code held went out
    omega

theorem exec_keeps_packer_inv {i : Instr} {s t : State} (hs : s.pk.Inv) (h : exec i s = .next t) : t.pk.Inv := by
  cases i with
  | pkStart opd => cases h; exact Packer.inv_zero
  | pkPush d => cases h; exact (pkPush_residue hs d).2
  | pkFlush opd => cases h; exact Packer.inv_zero
  | upStart _ | upPush _ | dcStart _ | dcPush _ => rwa [(exec_keeps_pk h (by simp [Instr.unit])).1]

theorem exec_keeps_unpacker_inv {i : Instr} {s t : State} (hs : s.up.Inv) (h : exec i s = .next t) : t.up.Inv := by
  cases i with
  | upStart n => cases h; exact Unpacker.inv_started n
  | upPush w =>
    obtain ⟨n, hn⟩ := Nat.exists_eq_add_of_le hs.1
    by_cases h0 : n = 0
    · rw [exec_upPush_done (BitVec.eq_of_toNat_eq (by omega)) w] at h
      cases h
      exact hs
    · obtain ⟨u, hu, hinv, -⟩ := exec_upPush_running hs hn.symm h0 w rfl
      rw [hu] at h
      cases h
      exact hinv
  | pkStart _ | pkPush _ | pkFlush _ | dcStart _ | dcPush _ => rwa [(exec_keeps_up h (by simp [Instr.unit])).1]

/-- The invariants, command by command: each unit's own. -/
theorem exec_keeps_inv {i : Instr} {s t : State} (hs : s.Inv) (h : exec i s = .next t) : t.Inv :=
  ⟨exec_keeps_packer_inv hs.1 h, exec_keeps_unpacker_inv hs.2 h⟩

theorem applyReset_inv (s : State) : (applyReset s).Inv :=
  ⟨Packer.inv_zero, Unpacker.inv_started 0#16⟩

/-- Settles O15: a step either leaves the registers, clears them, or executes one command, which keeps each unit's
invariant. -/
theorem stepKeepsTheInvariants : Obligations.StepKeepsTheInvariants := by
  intro s t hs h
  obtain ⟨rest, rfl⟩ | ⟨rest, -, rfl⟩ | ⟨w, rest, i, -, -, hi⟩ := step_next_cases h
  · exact hs
  · exact applyReset_inv _
  · exact exec_keeps_inv (s := { s with pending := rest }) hs hi

/-- Settles O16. -/
theorem resetMeetsTheInvariants : Obligations.ResetMeetsTheInvariants :=
  ⟨⟨Packer.inv_zero, Unpacker.inv_started 0#16⟩, applyReset_inv⟩

/-- Settles O11: the reset state's registers are written out, and the RESET event's by its field lemmas. -/
theorem resetValuesAreZero : Obligations.ResetValuesAreZero :=
  ⟨rfl, rfl, rfl, fun s => ⟨applyReset_pk s, applyReset_up s, applyReset_dc s⟩⟩

/-! The ROM and the streams (R26, R27), and the frame (R41). -/

theorem step_keeps_tables {s t : State} (h : step s = .next t) : t.tables = s.tables := by
  obtain ⟨rest, rfl⟩ | ⟨rest, -, rfl⟩ | ⟨w, rest, i, -, -, hi⟩ := step_next_cases h
  · rfl
  · rfl
  · exact (exec_frame hi).1

/-- Settles O17. -/
theorem tableRomIsNeverWritten : Obligations.TableRomIsNeverWritten := by
  intro s t h
  have htables := step_keeps_tables h
  exact ⟨htables, fun a => by rw [htables]⟩

/-- Settles O18: only a command appends. -/
theorem streamsOnlyGrow : Obligations.StreamsOnlyGrow := by
  intro s t h
  obtain ⟨rest, rfl⟩ | ⟨rest, -, rfl⟩ | ⟨w, rest, i, -, -, hi⟩ := step_next_cases h
  · exact ⟨[], [], [], by simp⟩
  · exact ⟨[], [], [], by simp⟩
  · obtain ⟨-, -, ⟨ws, hws, -⟩, ⟨cs, hcs, -⟩, xs, hxs, -⟩ := exec_frame hi
    exact ⟨ws, cs, xs, hws, hcs, hxs⟩

/-- Settles O30, from the frame of every command. -/
theorem commandsLeaveOtherUnitsAlone : Obligations.CommandsLeaveOtherUnitsAlone := by
  intro i s t h
  obtain ⟨htables, hpending, -⟩ := exec_frame h
  exact ⟨exec_keeps_pk h, exec_keeps_up h, exec_keeps_dc h, htables, hpending, fun a => by rw [htables]⟩

/-! The table entry a datum selects (R31, R48, R81). -/

theorem symbolOf_toNat (d : Operand) : (symbolOf d).toNat = d.toNat % 32 := by
  simp [symbolOf]

theorem tableAddress_toNat (st : BitVec 1) (c : Code) : (tableAddress st c).toNat = 32 * st.toNat + c.toNat := by
  rw [tableAddress, BitVec.toNat_append, Nat.shiftLeft_eq, Nat.mul_comm, Nat.two_pow_add_eq_or_of_lt c.isLt]

/-- A table read is the entry at the place R31 computes. -/
theorem getElem?_tableAddress (rom : TableRom) (st : BitVec 1) (d : Operand) :
    rom[32 * st.toNat + d.toNat % 32]? = some (tableRead rom (tableAddress st (symbolOf d))) := by
  rw [← symbolOf_toNat, ← tableAddress_toNat]
  exact Vector.getElem?_eq_getElem _

theorem entryPayload_low_bit (e : EntryBits) : (entryPayload e).extractLsb' 0 1 = e.extractLsb' 0 1 :=
  BitVec.extractLsb'_extractLsb'_of_le (by omega)

/-- A shift directive has kind SHIFT and names the state in bit 0 of the payload (R48). -/
theorem entryOf_eq_shift {e : EntryBits} {st : BitVec 1} (h : entryOf e = .shift st) :
    e.extractLsb' 8 2 = 0b10#2 ∧ st = e.extractLsb' 0 1 := by
  unfold entryOf at h
  split_ifs at h with _ _ hkind
  cases h
  exact ⟨hkind, entryPayload_low_bit e⟩

/-- The kind is bits 9 and 8 of the entry (R48). -/
theorem entryKind_eq_iff (e : EntryBits) (k : BitVec 2) :
    entryKind e = k ↔ e.getLsbD 9 = k.getLsbD 1 ∧ e.getLsbD 8 = k.getLsbD 0 := by
  constructor
  · rintro rfl
    simp [entryKind]
  · rintro ⟨h9, h8⟩
    refine BitVec.eq_of_getLsbD_eq fun i hi => ?_
    obtain rfl | rfl : i = 0 ∨ i = 1 := by omega
    · simpa [entryKind] using h8
    · simpa [entryKind] using h9

/-- What an entry says, on its raw bits (R48). -/
theorem entryOf_eq_of_bits (e : EntryBits) : entryOf e =
    if e.getLsbD 9 then
      if e.getLsbD 8 then .null else .shift (BitVec.ofBool (e.getLsbD 0))
    else
      if e.getLsbD 8 then .char (entryPayload e) else .absent := by
  have hbit : (entryPayload e).extractLsb' 0 1 = BitVec.ofBool (e.getLsbD 0) := by
    rw [entryPayload_low_bit, ← BitVec.setWidth_eq_extractLsb' (by omega), BitVec.setWidth_one]
  simp only [entryOf, entryKind_eq_iff, hbit]
  cases e.getLsbD 9 <;> cases e.getLsbD 8 <;> rfl

/-- Only a shift directive leads to another state (R86). -/
theorem eq_shift_of_entryNext_ne {st : BitVec 1} {e : TableEntry} (h : entryNext st e ≠ st) :
    e = .shift (entryNext st e) := by
  cases e with
  | shift target => rfl
  | absent | char _ | null => exact absurd rfl h

/-! The decoder state (R19). -/

/-- What a command that changed `DC.SHIFT` was (R80, R82). -/
theorem exec_changes_shift {i : Instr} {s t : State} (h : exec i s = .next t) (hne : t.dc.shift ≠ s.dc.shift) :
    t.dcOut = s.dcOut ∧
    ((∃ opd, i = .dcStart opd ∧ t.dc.shift = 0#1) ∨
     ∃ d e, i = .dcPush d ∧ s.tables[32 * s.dc.shift.toNat + d.toNat % 32]? = some e ∧
       e.extractLsb' 8 2 = 0b10#2 ∧ t.dc.shift = e.extractLsb' 0 1) := by
  cases i with
  | dcStart opd => cases h; exact ⟨rfl, .inl ⟨opd, rfl, rfl⟩⟩
  | dcPush d =>
    cases h
    have hshift := eq_shift_of_entryNext_ne hne
    obtain ⟨hkind, htarget⟩ := entryOf_eq_shift hshift
    refine ⟨?_, .inr ⟨d, _, rfl, getElem?_tableAddress _ _ _, hkind, htarget⟩⟩
    change s.dcOut ++ entryOutput (lookup s.tables s.dc.shift d) = s.dcOut
    rw [hshift]
    simp [entryOutput]
  | pkStart _ | pkPush _ | pkFlush _ | upStart _ | upPush _ =>
    exact absurd (by rw [(exec_keeps_dc h (by simp [Instr.unit])).1]) hne

/-- Settles O29: the step's part follows from the command's, and RESET writes LETTERS. -/
theorem onlyStartsShiftEntriesAndResetChangeTheState :
    Obligations.OnlyStartsShiftEntriesAndResetChangeTheState := by
  refine ⟨fun i s t => exec_changes_shift, fun s t h hne => ?_⟩
  obtain ⟨rest, rfl⟩ | ⟨rest, hp, rfl⟩ | ⟨w, rest, i, hp, hd, hi⟩ := step_next_cases h
  · exact absurd rfl hne
  · exact ⟨rfl, _, rest, hp, .inl ⟨rfl, rfl⟩⟩
  · obtain ⟨hout, ⟨opd, rfl, hst⟩ | ⟨d, e, rfl, hentry⟩⟩ := exec_changes_shift hi hne
    · exact ⟨hout, _, rest, hp, .inr ⟨w, rfl, .inl ⟨opd, hd, hst⟩⟩⟩
    · exact ⟨hout, _, rest, hp, .inr ⟨w, rfl, .inr ⟨d, e, hd, hentry⟩⟩⟩

/-! Whole invocations (R28, R104): each appends what the algorithm on unbounded naturals answers. -/

/-- Pushes and the flush, from any packer that meets R13. -/
theorem execAll_pkPush_pkFlush {s : State} (h : s.pk.Inv) (codes : List Operand) :
    execAll (codes.map Instr.pkPush ++ [.pkFlush 0#16]) s = .next { s with
      pk := ⟨0#20, 0#5⟩
      pkOut := s.pkOut ++ (packFrom 5 16 s.pk.residue (codes.map BitVec.toNat)).map (BitVec.ofNat 16) } := by
  induction codes generalizing s with
  | nil => exact execAll_cons (exec_pkFlush 0#16 s) []
  | cons d codes ih =>
    have hexec := exec_pkPush d s
    obtain ⟨hres, hinv⟩ := pkPush_residue h d
    generalize hout : packStep 5 16 s.pk.residue d.toNat = out at hexec hres hinv
    rw [List.map_cons, List.cons_append, execAll_cons hexec, ih (s := (s.writePk out.2).emitPk out.1) hinv,
      State.emitPk_pk, hres]
    simp [packFrom, hout, State.emitPk, State.writePk]

/-- A PACK from any state (R90). -/
theorem execAll_packCommands (codes : List Operand) (s : State) :
    execAll (packCommands codes) s = .next { s with
      pk := ⟨0#20, 0#5⟩
      pkOut := s.pkOut ++ (packWith 5 16 (codes.map BitVec.toNat)).map (BitVec.ofNat 16) } := by
  rw [packCommands, execAll_cons (exec_pkStart 0#16 s)]
  exact execAll_pkPush_pkFlush Packer.inv_zero codes

/-- Pushes with `n` codes still to come, from any unpacker that meets R18. -/
theorem execAll_upPush {s : State} {n : Nat} (h : s.up.Inv) (hn : s.up.emitted.toNat + n = s.up.count.toNat)
    (words : List PackedWord) : ∃ u : Unpacker,
      execAll (words.map Instr.upPush) s = .next { s with
        up := u
        upOut := s.upOut ++ (unpackFrom 5 16 n s.up.residue (words.map BitVec.toNat)).map (BitVec.ofNat 5) } ∧
      u.count = s.up.count ∧
      u.emitted.toNat = s.up.emitted.toNat + (unpackFrom 5 16 n s.up.residue (words.map BitVec.toNat)).length := by
  induction words generalizing s n with
  | nil => exact ⟨s.up, by simp [unpackFrom], rfl, rfl⟩
  | cons w words ih =>
    by_cases h0 : n = 0
    · obtain ⟨u, hu, hcount, hemitted⟩ := ih h hn
      subst h0
      have hdone : s.up.emitted = s.up.count := BitVec.eq_of_toNat_eq hn
      simp only [unpackFrom_none_remaining] at hu hemitted ⊢
      exact ⟨u, by rw [List.map_cons, execAll_cons (exec_upPush_done hdone w), hu], hcount, hemitted⟩
    · have hlen := unpackStep_length (S := 5) (by omega) 16 w.toNat n s.up.residue
      rw [List.map_cons, List.map_cons, unpackFrom_cons 5 16 h0]
      generalize hout : unpackStep 5 16 n s.up.residue w.toNat = out at hlen ⊢
      obtain ⟨u, hu, hinv, hres, hcount, hemitted⟩ := exec_upPush_running h hn h0 w hout
      obtain ⟨v, hv, hcount', hemitted'⟩ :=
        ih (s := { s with up := u, upOut := s.upOut ++ out.1.map (BitVec.ofNat 5) }) (n := n - out.1.length) hinv
          (by rw [hemitted, hcount]; omega)
      rw [hres] at hv hemitted'
      refine ⟨v, by rw [execAll_cons hu, hv]; simp, hcount'.trans hcount, ?_⟩
      rw [hemitted', hemitted, List.length_append, Nat.add_assoc]

/-- An UNPACK from any state (R96). -/
theorem execAll_unpackCommands (n : Operand) (words : List PackedWord) (s : State) : ∃ u : Unpacker,
      execAll (unpackCommands n words) s = .next { s with
        up := u
        upOut := s.upOut ++ (unpackWith 5 16 n.toNat (words.map BitVec.toNat)).map (BitVec.ofNat 5) } ∧
      u.count = n ∧ u.emitted.toNat = (unpackWith 5 16 n.toNat (words.map BitVec.toNat)).length := by
  obtain ⟨u, hu, hcount, hemitted⟩ :=
    execAll_upPush (s := ((s.writeUp .empty).writeEmitted 0#16).writeCount n) (n := n.toNat)
      (Unpacker.inv_started n) (Nat.zero_add _) words
  refine ⟨u, ?_, hcount, hemitted.trans (Nat.zero_add _)⟩
  rw [unpackCommands, execAll_cons (exec_upStart n s)]
  exact hu

/-- The reference decoder on raw entries, in terms of what an entry says (R86). -/
theorem decodeFrom_cons (rom : TableRom) (st : BitVec 1) (c : Code) (cs : List Code) :
    decodeFrom rom st (c :: cs) = entryOutput (entryOf (tableRead rom (tableAddress st c))) ++
      decodeFrom rom (entryNext st (entryOf (tableRead rom (tableAddress st c)))) cs := by
  rw [entryOf_eq_of_bits, decodeFrom]
  split <;> split <;> rfl

/-- Pushes from any decoder state. -/
theorem execAll_dcPush (codes : List Operand) (s : State) : ∃ dc : Decoder,
    execAll (codes.map Instr.dcPush) s = .next { s with
      dc := dc
      dcOut := s.dcOut ++ decodeFrom s.tables s.dc.shift (codes.map symbolOf) } := by
  induction codes generalizing s with
  | nil => exact ⟨s.dc, by simp [decodeFrom]⟩
  | cons d codes ih =>
    obtain ⟨dc, hdc⟩ := ih ((s.writeShift (entryNext s.dc.shift (lookup s.tables s.dc.shift d))).emitDc
      (entryOutput (lookup s.tables s.dc.shift d)))
    refine ⟨dc, ?_⟩
    rw [List.map_cons, execAll_cons (exec_dcPush d s), hdc, List.map_cons, decodeFrom_cons]
    simp [State.emitDc, State.writeShift, lookup]

/-- A DECODE from any state (R102). -/
theorem execAll_decodeCommands (codes : List Operand) (s : State) : ∃ dc : Decoder,
    execAll (decodeCommands codes) s = .next { s with
      dc := dc
      dcOut := s.dcOut ++ decodeText s.tables (codes.map symbolOf) } := by
  rw [decodeCommands, execAll_cons (exec_dcStart 0#16 s)]
  exact execAll_dcPush codes _

/-- Settles O44: `packWith`, `unpackWith` and `decodeText` take no state. -/
theorem invocationsAreStateless : Obligations.InvocationsAreStateless := by
  refine ⟨fun codes => ⟨(packWith 5 16 (codes.map BitVec.toNat)).map (BitVec.ofNat 16), fun s => ?_⟩,
    fun n words => ⟨(unpackWith 5 16 n.toNat (words.map BitVec.toNat)).map (BitVec.ofNat 5), fun s => ?_⟩,
    fun codes rom => ⟨decodeText rom (codes.map symbolOf), fun s hrom => ?_⟩⟩
  · exact ⟨_, execAll_packCommands codes s, rfl⟩
  · obtain ⟨u, hu, -⟩ := execAll_unpackCommands n words s
    exact ⟨_, hu, rfl⟩
  · obtain ⟨dc, hdc⟩ := execAll_decodeCommands codes s
    rw [hrom] at hdc
    exact ⟨_, hdc, rfl⟩

end Sys2Proof.Machine

/-! PROOFS. Memory and streams (spec/20_memory.md): table addressing, the order of the host's commands, the independence
of the three units, the bit order of PACK and UNPACK, and words as bytes on a host's side. -/

namespace Sys2Proof.Machine

/-- Settles O5: the address as a number, and the read at that place of the ROM. -/
theorem tableAddressing : Obligations.TableAddressing := by
  intro rom st c
  refine ⟨tableAddress_toNat st c, ?_⟩
  rw [← tableAddress_toNat]
  exact Vector.getElem?_eq_getElem _

/-! The order of the host's commands (R40). -/

theorem decode_encode (i : Instr) : decode (encode i) = .ok i := by
  cases i <;> simp [decode, encode, Instr.opc, Instr.opd]

theorem decodeTableWord_eq_some {nbits w : Nat} {i : Instr} (h : decodeTableWord nbits w = some i) :
    decode (tableWord nbits w) = .ok i := by
  unfold decodeTableWord at h
  split at h
  · rename_i hd
    rw [hd, Option.some.inj h]
  · cases h

/-- Settles O7: the placed word is at the head of the queue, and taking it leaves the state it was placed in. -/
theorem stepRunsTheDecodedCommand : Obligations.StepRunsTheDecodedCommand :=
  ⟨fun _ _ _ _ => step_command, fun s nbits w _ h =>
    step_command (s := s.withFetchWord nbits w) rfl (decodeTableWord_eq_some h)⟩

/-- No command reads the host's queue (log 1). -/
theorem exec_with_pending {i : Instr} {s t : State} (h : exec i s = .next t) (inputs : List HostInput) :
    exec i { s with pending := inputs } = .next { t with pending := inputs } := by
  cases i with
  | upPush w =>
    by_cases hd : s.up.emitted = s.up.count
    · rw [exec_upPush_done hd] at h
      cases h
      exact exec_upPush_done (s := { s with pending := inputs }) hd w
    · rw [exec_upPush hd] at h
      cases h
      exact exec_upPush (s := { s with pending := inputs }) hd w
  | pkStart _ | pkPush _ | pkFlush _ | upStart _ | dcStart _ | dcPush _ => cases h; rfl

theorem run_succ {s t : State} (h : step s = .next t) (n : Nat) :
    Host.Core.run Sys2Proof.core (n + 1) s = Host.Core.run Sys2Proof.core n t := by
  have h' : Sys2Proof.core.step s = .next t := h
  simp only [Host.Core.run, h']

/-- Settles O12, by induction on the commands: the head's step executes it and leaves the others pending. -/
theorem pendingCommandsRunInOrder : Obligations.PendingCommandsRunInOrder := by
  intro is rest s hp
  induction is generalizing s with
  | nil =>
    obtain rfl : s.pending = rest := hp
    rfl
  | cons i is ih =>
    obtain ⟨t, ht, -⟩ := exec_next i s
    have hstep := (step_command hp (decode_encode i)).trans (exec_with_pending ht _)
    rw [List.length_cons, run_succ hstep, ih _ rfl, execAll_cons (exec_with_pending ht rest)]

/-! The independence of the units (R41, R105). -/

/-- Two states do not differ in what the commands of one unit read and write: its registers, its stream, and for the
decoder the table ROM (R10, R26, R27). -/
def AgreeOn : CodecUnit → State → State → Prop
  | .pk, s, t => s.pk = t.pk ∧ s.pkOut = t.pkOut
  | .up, s, t => s.up = t.up ∧ s.upOut = t.upOut
  | .dc, s, t => s.dc = t.dc ∧ s.dcOut = t.dcOut ∧ s.tables = t.tables

theorem AgreeOn.refl (u : CodecUnit) (s : State) : AgreeOn u s s := by
  cases u <;> simp [AgreeOn]

/-- A command of another unit is not seen by unit `u` (R41). -/
theorem AgreeOn.of_exec_other {u : CodecUnit} {i : Instr} {s t s' : State} (h : AgreeOn u s s')
    (ht : exec i s = .next t) (hi : i.unit ≠ u) : AgreeOn u t s' := by
  cases u with
  | pk =>
    obtain ⟨hpk, hout⟩ := h
    obtain ⟨hpk', hout'⟩ := exec_keeps_pk ht hi
    exact ⟨hpk'.trans hpk, hout'.trans hout⟩
  | up =>
    obtain ⟨hup, hout⟩ := h
    obtain ⟨hup', hout'⟩ := exec_keeps_up ht hi
    exact ⟨hup'.trans hup, hout'.trans hout⟩
  | dc =>
    obtain ⟨hdc, hout, htables⟩ := h
    obtain ⟨hdc', hout'⟩ := exec_keeps_dc ht hi
    obtain ⟨htables', -⟩ := exec_frame ht
    exact ⟨hdc'.trans hdc, hout'.trans hout, htables'.trans htables⟩

/-- A command does the same to its own unit in states that agree on the unit (R41). -/
theorem AgreeOn.exec_own {i : Instr} {s s' t t' : State} (h : AgreeOn i.unit s s')
    (ht : exec i s = .next t) (ht' : exec i s' = .next t') : AgreeOn i.unit t t' := by
  cases i with
  | pkStart _ | pkPush _ | pkFlush _ =>
    obtain ⟨hpk, hout⟩ := h
    cases ht
    cases ht'
    simp [AgreeOn, Instr.unit, hpk, hout]
  | upStart n =>
    obtain ⟨hup, hout⟩ := h
    cases ht
    cases ht'
    simp [AgreeOn, Instr.unit, hup, hout]
  | upPush w =>
    obtain ⟨hup, hout⟩ := h
    by_cases hd : s.up.emitted = s.up.count
    · rw [exec_upPush_done hd] at ht
      rw [exec_upPush_done (hup ▸ hd)] at ht'
      cases ht
      cases ht'
      exact ⟨hup, hout⟩
    · rw [exec_upPush hd] at ht
      rw [exec_upPush (hup ▸ hd)] at ht'
      cases ht
      cases ht'
      simp [AgreeOn, Instr.unit, hup, hout]
  | dcStart _ | dcPush _ =>
    obtain ⟨hdc, hout, htables⟩ := h
    cases ht
    cases ht'
    simp [AgreeOn, Instr.unit, hdc, hout, htables]

/-- A unit ends as it does when only its own commands of the sequence are executed (R105). -/
theorem execAll_agreeOn_filter (u : CodecUnit) {is : List Instr} {s s' t t' : State} (h : AgreeOn u s s')
    (ht : execAll is s = .next t) (ht' : execAll (is.filter fun i => i.unit = u) s' = .next t') : AgreeOn u t t' := by
  induction is generalizing s s' with
  | nil =>
    cases ht
    cases ht'
    exact h
  | cons i is ih =>
    obtain ⟨a, ha, -⟩ := exec_next i s
    rw [execAll_cons ha] at ht
    by_cases hi : i.unit = u
    · obtain ⟨a', ha', -⟩ := exec_next i s'
      rw [List.filter_cons_of_pos (by simpa using hi), execAll_cons ha'] at ht'
      subst hi
      exact ih (h.exec_own ha ha') ht ht'
    · rw [List.filter_cons_of_neg (by simpa using hi)] at ht'
      exact ih (h.of_exec_other ha hi) ht ht'

/-- Settles O32: each unit agrees with the run of its own commands. -/
theorem interleavingChangesNoUnit : Obligations.InterleavingChangesNoUnit := by
  intro is s
  obtain ⟨t, ht⟩ := execAll_next is s
  obtain ⟨a, ha⟩ := execAll_next (is.filter fun i => i.unit = .pk) s
  obtain ⟨b, hb⟩ := execAll_next (is.filter fun i => i.unit = .up) s
  obtain ⟨c, hc⟩ := execAll_next (is.filter fun i => i.unit = .dc) s
  obtain ⟨hpk, hpkOut⟩ := execAll_agreeOn_filter .pk (.refl _ s) ht ha
  obtain ⟨hup, hupOut⟩ := execAll_agreeOn_filter .up (.refl _ s) ht hb
  obtain ⟨hdc, hdcOut, -⟩ := execAll_agreeOn_filter .dc (.refl _ s) ht hc
  exact ⟨t, a, b, c, ht, ha, hb, hc, hpk, hpkOut, hup, hupOut, hdc, hdcOut⟩

theorem execAll_keeps_pending {is : List Instr} {s t : State} (h : execAll is s = .next t) : t.pending = s.pending := by
  induction is generalizing s with
  | nil => cases h; rfl
  | cons i is ih =>
    obtain ⟨a, ha, -⟩ := exec_next i s
    rw [execAll_cons ha] at h
    obtain ⟨-, hpending, -⟩ := exec_frame ha
    exact (ih h).trans hpending

theorem AgreeOn.trans_symm {u : CodecUnit} {s t a : State} (hs : AgreeOn u s a) (ht : AgreeOn u t a) :
    AgreeOn u s t := by
  cases u <;> simp_all [AgreeOn]

/-- The units and the queue are all there is in a state. -/
theorem eq_of_agreeOn {s t : State} (h : ∀ u, AgreeOn u s t) (hpending : s.pending = t.pending) : s = t := by
  obtain ⟨hpk, hpkOut⟩ := h .pk
  obtain ⟨hup, hupOut⟩ := h .up
  obtain ⟨hdc, hdcOut, htables⟩ := h .dc
  cases s
  cases t
  rw [State.mk.injEq]
  exact ⟨hpk, hup, hdc, hpkOut, hupOut, hdcOut, htables, hpending⟩

/-- Sequences that give each unit the same commands in the same order have one outcome. -/
theorem execAll_eq_of_filter_eq {is js : List Instr}
    (h : ∀ u : CodecUnit, (is.filter fun i => i.unit = u) = js.filter fun j => j.unit = u) (s : State) :
    execAll is s = execAll js s := by
  obtain ⟨t, ht⟩ := execAll_next is s
  obtain ⟨t', ht'⟩ := execAll_next js s
  have hsame : ∀ u, AgreeOn u t t' := fun u => by
    obtain ⟨a, ha⟩ := execAll_next (is.filter fun i => i.unit = u) s
    have hs := execAll_agreeOn_filter u (.refl u s) ht ha
    exact hs.trans_symm (execAll_agreeOn_filter u (.refl u s) ht' (h u ▸ ha))
  have hpending := (execAll_keeps_pending ht).trans (execAll_keeps_pending ht').symm
  rw [ht, ht', eq_of_agreeOn hsame hpending]

/-- Settles O31: neither order gives a unit more than one of the two commands. -/
theorem unitsCommute : Obligations.UnitsCommute := by
  intro i j s hij
  refine execAll_eq_of_filter_eq (fun u => ?_) s
  by_cases hi : i.unit = u
  · have hj : j.unit ≠ u := fun hj => hij (hi.trans hj.symm)
    simp [hi, hj]
  · simp [List.filter_cons, hi]

/-! The bit order of the packed stream (R35, R36). -/

/-- Place `n * k + j` of a stream is bit `j` from the top of value `k`. -/
theorem streamBits_getElem? {n j : Nat} (hj : j < n) {vs : List Nat} {k v : Nat} (hv : vs[k]? = some v) :
    (streamBits n vs)[n * k + j]? = some (v.testBit (n - 1 - j)) := by
  induction vs generalizing k with
  | nil => simp at hv
  | cons v' vs ih =>
    cases k with
    | zero =>
      obtain rfl : v' = v := by simpa using hv
      rw [streamBits_cons, Nat.mul_zero, Nat.zero_add, List.getElem?_append_left (by simpa using hj),
        msbBits_getElem? hj]
    | succ k =>
      have hplace : n * (k + 1) + j - n = n * k + j := by rw [Nat.mul_succ]; omega
      rw [streamBits_cons, List.getElem?_append_right (by rw [msbBits_length, Nat.mul_succ]; omega), msbBits_length,
        hplace, ih hv]

/-- Settles O35: place `16 * i + t` of the words' stream, read in the codes' stream and its pad bits. -/
theorem packedBitPositions : Obligations.PackedBitPositions := by
  intro codes s
  refine ⟨_, execAll_packCommands codes s, fun i t w hw ht => ?_⟩
  obtain ⟨v, hv, rfl⟩ : ∃ v, (packWith 5 16 (codes.map BitVec.toNat))[i]? = some v ∧ BitVec.ofNat 16 v = w := by
    simpa using hw
  have hplace := streamBits_getElem? ht hv
  have hbit : (BitVec.ofNat 16 v).getLsbD (15 - t) = v.testBit (15 - t) := by
    rw [BitVec.getLsbD_ofNat, decide_eq_true (by omega), Bool.true_and]
  rw [packWith_bits 5 (by omega)] at hplace
  rw [hbit]
  constructor
  · intro k j d hkj hj hd
    obtain ⟨hk, -⟩ := List.getElem?_eq_some_iff.1 hd
    have hcode : ((codes.map BitVec.toNat).map (maskTo 5))[k]? = some (maskTo 5 d.toNat) := by simp [hd]
    rw [← hkj, List.getElem?_append_left (by simp; omega), streamBits_getElem? hj hcode] at hplace
    rw [← Option.some.inj hplace, maskTo, Nat.testBit_mod_two_pow, decide_eq_true (by omega), Bool.true_and,
      BitVec.testBit_toNat]
  · intro hpad
    rw [List.getElem?_append_right (by simpa using hpad)] at hplace
    exact List.eq_of_mem_replicate (List.mem_of_getElem? hplace)

theorem map_toNat_map_ofNat {n : Nat} {vs : List Nat} (h : ∀ v ∈ vs, v < 2 ^ n) :
    (vs.map (BitVec.ofNat n)).map BitVec.toNat = vs := by
  rw [List.map_map]
  exact (List.map_congr_left fun v hv => Nat.mod_eq_of_lt (h v hv)).trans (List.map_id vs)

theorem toNat_lt_of_mem_map {n : Nat} (ws : List (BitVec n)) : ∀ v ∈ ws.map BitVec.toNat, v < 2 ^ n :=
  List.forall_mem_map.2 fun w _ => w.isLt

/-- Settles O38: what `unpackWith` answers, on the words as numbers. -/
theorem unpackReadsTheStream : Obligations.UnpackReadsTheStream := by
  intro n words s
  obtain ⟨u, hu, hcount, hemitted⟩ := execAll_unpackCommands n words s
  refine ⟨u, _, hu, hcount, by simpa using hemitted, ?_, ?_⟩
  · rw [List.length_map, unpackWith_length (by omega), List.length_map]
  · rw [codeStream, map_toNat_map_ofNat (unpackWith_lt 5 16 _ _), List.length_map]
    exact unpackWith_bits 5 16 _ (toNat_lt_of_mem_map words)

/-! Words as bytes (R37). -/

/-- The word with its two bytes exchanged: what a host loads that stored it in the other byte order (R37). -/
def swapBytes (w : PackedWord) : PackedWord :=
  w.extractLsb' 0 8 ++ w.extractLsb' 8 8

theorem high_append_low (w : PackedWord) : (w.extractLsb' 8 8 ++ w.extractLsb' 0 8 : PackedWord) = w := by
  rw [BitVec.extractLsb'_append_extractLsb'_eq_extractLsb' (by omega)]
  exact BitVec.extractLsb'_eq_self

/-- A word is its bytes exchanged exactly when they are equal. -/
theorem swapBytes_eq_self_iff (w : PackedWord) : swapBytes w = w ↔ w.extractLsb' 8 8 = w.extractLsb' 0 8 := by
  constructor
  · intro h
    calc w.extractLsb' 8 8 = (swapBytes w).extractLsb' 8 8 := by rw [h]
      _ = w.extractLsb' 0 8 := BitVec.extractLsb'_append_eq_left
  · intro h
    calc swapBytes w = w.extractLsb' 8 8 ++ w.extractLsb' 0 8 := by rw [swapBytes, h]
      _ = w := high_append_low w

theorem bytesToWords_stored_same (order : ByteOrder) (ws : List PackedWord) :
    bytesToWords order (ws.flatMap (wordToBytes order)) = ws := by
  induction ws with
  | nil => rfl
  | cons w ws ih =>
    rw [List.flatMap_cons]
    cases order <;> simp [wordToBytes, bytesToWords, high_append_low, ih]

/-- Loading in the order that did not store exchanges the bytes of every word (R37). -/
theorem bytesToWords_stored_other {order other : ByteOrder} (h : order ≠ other) (ws : List PackedWord) :
    bytesToWords other (ws.flatMap (wordToBytes order)) = ws.map swapBytes := by
  induction ws with
  | nil => rfl
  | cons w ws ih =>
    rw [List.flatMap_cons, List.map_cons, ← ih]
    cases order <;> cases other
    · exact absurd rfl h
    · rfl
    · rfl
    · exact absurd rfl h

theorem msbBits_bytes (w : PackedWord) :
    msbBits 16 w.toNat = msbBits 8 (w.extractLsb' 8 8).toNat ++ msbBits 8 (w.extractLsb' 0 8).toNat := by
  rw [msbBits_add 8 8]
  simp only [BitVec.extractLsb'_toNat, msbBits_mod (Nat.le_refl 8), Nat.shiftRight_zero]

/-- With the high byte first the bytes' stream is the words' stream (R37's remark). -/
theorem streamBits_stored_big (ws : List PackedWord) :
    streamBits 8 ((ws.flatMap (wordToBytes .big)).map BitVec.toNat) = wordStream ws := by
  induction ws with
  | nil => rfl
  | cons w ws ih =>
    rw [wordStream] at ih ⊢
    simp [wordToBytes, msbBits_bytes, ih]

/-- Settles O48: one order gives the words, two exchange the bytes of each; `0x0001` is not its bytes exchanged. -/
theorem byteOrderMustMatch : Obligations.ByteOrderMustMatch := by
  refine ⟨fun ws => bytesToWords_stored_same _ ws, bytesToWords_stored_same, fun order other ws h => ?_,
    ⟨0x0001#16, by decide⟩, ⟨0x0001#16, by decide⟩, streamBits_stored_big⟩
  have hmap := List.map_inj_left (l := ws) (f := swapBytes) (g := id)
  simpa only [bytesToWords_stored_other h, List.map_id, id, swapBytes_eq_self_iff] using hmap

end Sys2Proof.Machine

/-! PROOFS. The command encoding (spec/30_encoding.md R51 to R54), the operand forms, the table entries and the
assembler's examples. -/

namespace Sys2Proof.Machine

/-! The two fields of a command word (R51). -/

/-- Two fields make up a word exactly when they are the word's. -/
theorem append_eq_word_iff {o : Opc} {d : Operand} {w : CommandWord} :
    o ++ d = w ↔ opcField w = o ∧ opdField w = d := by
  constructor
  · rintro rfl
    exact ⟨opcField_append o d, opdField_append o d⟩
  · rintro ⟨rfl, rfl⟩
    exact opc_append_opd w

theorem encode_eq_iff {i : Instr} {w : CommandWord} : encode i = w ↔ opcField w = i.opc ∧ opdField w = i.opd :=
  append_eq_word_iff

/-- The decoder drops no bit of a word it accepts. -/
theorem encode_of_decode {w : CommandWord} {i : Instr} (h : decode w = .ok i) : encode i = w := by
  rw [encode_eq_iff]
  unfold decode at h
  split_ifs at h with hopc hopc hopc hopc hopc hopc hopc <;> cases h <;> exact ⟨hopc, rfl⟩

/-- Settles O1: an accepted word is the encoding of what it decodes to, and an encoding decodes to its command. -/
theorem decodeInvertsEncode : Obligations.DecodeInvertsEncode := by
  intro w i
  constructor
  · exact encode_of_decode
  · rintro rfl
    exact decode_encode i

theorem decode_eq_ok_iff {w : CommandWord} {i : Instr} :
    decode w = .ok i ↔ opcField w = i.opc ∧ opdField w = i.opd :=
  (decodeInvertsEncode w i).trans encode_eq_iff

/-- Settles O3: each word is the encoding of its command. -/
theorem writtenOutWordsDecode : Obligations.WrittenOutWordsDecode := by
  unfold Obligations.WrittenOutWordsDecode
  simp only [decodeInvertsEncode _ _]
  decide

/-! The opcode map (R52). -/

/-- The mask 0xFF0000 keeps the operation code and clears the operand field. -/
theorem word_and_mask (w : CommandWord) : w &&& 0xFF0000#24 = opcField w ++ 0#16 := by
  have hmask : 0xFF0000#24 = 0xFF#8 ++ 0#16 := by decide
  have hones : opcField w &&& 0xFF#8 = opcField w := BitVec.and_allOnes
  conv_lhs => rw [← opc_append_opd w, hmask]
  rw [BitVec.and_append, hones, BitVec.and_zero]

/-- Every row compares all eight bits of `OPC`, with those of its command. -/
theorem opcodeTable_bits : ∀ row ∈ opcodeTable,
    row.mask = 0xFF0000#24 ∧ row.pattern = (row.command 0#16).opc ++ 0#16 := by
  decide

/-- The operand does not change the operation code of a row's command, and is that command's operand. -/
theorem opcodeTable_command {row : OpcodeRow} (h : row ∈ opcodeTable) (d : Operand) :
    (row.command d).opc = (row.command 0#16).opc ∧ (row.command d).opd = d := by
  simp only [opcodeTable, List.mem_cons, List.not_mem_nil, or_false] at h
  rcases h with rfl | rfl | rfl | rfl | rfl | rfl | rfl <;> exact ⟨rfl, rfl⟩

/-- Every command is that of a row. -/
theorem exists_opcodeTable_row (i : Instr) : ∃ row ∈ opcodeTable, row.command i.opd = i := by
  cases i <;> simp [opcodeTable, Instr.opd]

/-- A word has the masked bits of a row exactly when its operation code is that of the row's command. -/
theorem row_matches_iff {row : OpcodeRow} (h : row ∈ opcodeTable) (w : CommandWord) (d : Operand) :
    w &&& row.mask = row.pattern ↔ opcField w = (row.command d).opc := by
  obtain ⟨hmask, hpattern⟩ := opcodeTable_bits row h
  rw [hmask, hpattern, word_and_mask, (opcodeTable_command h d).1, append_eq_word_iff, opcField_append, opdField_append]
  simp [eq_comm]

theorem decode_eq_ok_iff_row (w : CommandWord) (i : Instr) : decode w = .ok i ↔
    ∃ row ∈ opcodeTable, w &&& row.mask = row.pattern ∧ i = row.command (opdField w) := by
  rw [decode_eq_ok_iff]
  constructor
  · rintro ⟨hopc, hopd⟩
    obtain ⟨row, hrow, hi⟩ := exists_opcodeTable_row i
    exact ⟨row, hrow, (row_matches_iff hrow w i.opd).2 (by rw [hi, hopc]), hopd ▸ hi.symm⟩
  · rintro ⟨row, hrow, hmatch, rfl⟩
    obtain ⟨-, hopd⟩ := opcodeTable_command hrow (opdField w)
    exact ⟨(row_matches_iff hrow w _).1 hmatch, hopd.symm⟩

/-- The rows have one mask and different patterns, so no word matches two. -/
theorem opcodeTable_disjoint : opcodeTable.Pairwise fun a b =>
    ∀ w : CommandWord, ¬(w &&& a.mask = a.pattern ∧ w &&& b.mask = b.pattern) := by
  have hrows : opcodeTable.Pairwise fun a b => a.mask = b.mask ∧ a.pattern ≠ b.pattern := by decide
  refine hrows.imp ?_
  rintro a b ⟨hmask, hne⟩ w ⟨ha, hb⟩
  exact hne (ha.symm.trans (hmask ▸ hb))

/-- From bit 16 up, an encoded command's bits are those of its operation code. -/
theorem extractLsb'_encode {j : Nat} (h : 16 ≤ j) (n : Nat) (i : Instr) :
    (encode i).extractLsb' j n = i.opc.extractLsb' (j - 16) n :=
  BitVec.extractLsb'_append_eq_of_le h

/-- The decoder rejects exactly the words whose operation code is not defined (R54). -/
theorem decode_eq_error_iff (w : CommandWord) :
    decode w = .error (.reservedOpc (opcField w)) ↔ definedOpc (opcField w) = false := by
  constructor
  · intro h
    by_contra hdefined
    rw [Bool.not_eq_false, definedOpc_iff] at hdefined
    rcases hdefined with ho | ho | ho | ho | ho | ho | ho <;> simp [decode, ho] at h
  · exact decode_reserved

/-- The reserved operation codes in the ranges of R52. -/
theorem definedOpc_eq_false_iff (o : Opc) : definedOpc o = false ↔
    o.toNat ≤ 0x0F ∨ (0x13 ≤ o.toNat ∧ o.toNat ≤ 0x1F) ∨ (0x22 ≤ o.toNat ∧ o.toNat ≤ 0x2F) ∨ 0x32 ≤ o.toNat := by
  rw [← Bool.not_eq_true, definedOpc_iff]
  simp only [← BitVec.toNat_inj, BitVec.toNat_ofNat]
  omega

/-- The 256 values of `OPC` less the seven defined ones. -/
theorem reserved_count : ((List.range 256).filter fun n => !definedOpc (BitVec.ofNat 8 n)).length = 249 := by
  have hset : ((List.range 256).filter fun n => !definedOpc (BitVec.ofNat 8 n)).toFinset =
      Finset.range 256 \ {0x10, 0x11, 0x12, 0x20, 0x21, 0x30, 0x31} := by
    ext n
    simp only [List.mem_toFinset, List.mem_filter, List.mem_range, Finset.mem_sdiff, Finset.mem_range,
      Finset.mem_insert, Finset.mem_singleton, Bool.not_eq_true', definedOpc_eq_false_iff, BitVec.toNat_ofNat]
    omega
  rw [← List.toFinset_card_of_nodup (List.nodup_range.filter _), hset,
    Finset.card_sdiff_of_subset (by simp [Finset.insert_subset_iff]), Finset.card_range]
  simp

/-- Settles O2: the rows of the table, the nibbles of `OPC`, and the reserved codes. -/
theorem decodeFollowsTheOpcodeMap : Obligations.DecodeFollowsTheOpcodeMap := by
  refine ⟨decode_eq_ok_iff_row, opcodeTable_disjoint, fun i => ?_, fun i => ?_, reserved_count, fun w =>
    (decode_eq_error_iff w).trans (definedOpc_eq_false_iff _)⟩
  · rw [extractLsb'_encode (by omega)]
    cases i <;> simp [Instr.opc, Instr.unit]
  · rw [extractLsb'_encode (by omega)]
    cases i <;> simp [Instr.opc]

/-! The operand forms (R53). -/

/-- The packer's per-code step reads the datum's symbol code only (R61). -/
theorem packStep_symbolOf (W : Nat) (r : Residue) (d : Operand) :
    packStep 5 W r d.toNat = packStep 5 W r (symbolOf d).toNat := by
  have hmask : maskTo 5 d.toNat = maskTo 5 (symbolOf d).toNat := by
    rw [symbolOf_toNat]
    exact (Nat.mod_mod d.toNat (2 ^ 5)).symm
  rw [packStep, packStep, hmask]

theorem exec_pkPush_congr {d d' : Operand} (h : symbolOf d = symbolOf d') (s : State) :
    exec (.pkPush d) s = exec (.pkPush d') s := by
  rw [exec_pkPush, exec_pkPush, packStep_symbolOf 16 _ d, h, ← packStep_symbolOf]

theorem exec_dcPush_congr {d d' : Operand} (h : symbolOf d = symbolOf d') (s : State) :
    exec (.dcPush d) s = exec (.dcPush d') s := by
  rw [exec_dcPush, exec_dcPush, lookup, lookup, h]

/-- The symbol code of a presented integer is the integer modulo 32, also for a negative one. -/
theorem symbolOf_presentInt (c : Int) : (symbolOf (presentInt c)).toNat = (c % 32).toNat := by
  rw [symbolOf_toNat, presentInt, BitVec.toNat_ofInt]
  omega

/-- Settles O4: the two pushes read only `symbolOf` of the datum. -/
theorem operandBitsUsed : Obligations.OperandBitsUsed :=
  ⟨fun _ _ s h => ⟨exec_pkPush_congr h s, exec_dcPush_congr h s⟩,
    fun a b s => ⟨(exec_pkStart a s).trans (exec_pkStart b s).symm, (exec_pkFlush a s).trans (exec_pkFlush b s).symm,
      (exec_dcStart a s).trans (exec_dcStart b s).symm⟩,
    fun n s => ⟨_, exec_upStart n s, rfl⟩, symbolOf_presentInt⟩

/-! Table entries (R48). -/

@[simp] theorem entryKind_append (k : BitVec 2) (p : BitVec 8) : entryKind (k ++ p) = k :=
  BitVec.extractLsb'_append_eq_left

@[simp] theorem entryPayload_append (k : BitVec 2) (p : BitVec 8) : entryPayload (k ++ p) = p :=
  BitVec.extractLsb'_append_eq_right

/-- Settles O6: the kind and the payload of an entry are read back, and SHIFT takes bit 0 of the payload. -/
theorem entryFormat : Obligations.EntryFormat := by
  intro p
  have hbit : p.extractLsb' 0 1 = BitVec.ofBool (p.getLsbD 0) := by
    rw [← BitVec.setWidth_eq_extractLsb' (by omega), BitVec.setWidth_one]
  simp [entryOf, hbit]

/-! The assembler (R56, R57). -/

/-- Settles O49: the assembler run on each line. -/
theorem assemblerExamples : Obligations.AssemblerExamples := by
  unfold Obligations.AssemblerExamples
  decide

end Sys2Proof.Machine

/-! PROOFS. The packer's commands (spec/40_packer.md): each in closed form, the number of words they emit, the bounds on
what one command emits, the truncation of the data, and the register widths. -/

namespace Sys2Proof.Machine

/-- Settles O19: the empty residue in the packer's registers. -/
theorem pkStartEmptiesThePacker : Obligations.PkStartEmptiesThePacker :=
  exec_pkStart

/-! PK.PUSH (R61). -/

/-- A code that fills no word stays in the accumulator. -/
theorem packStep_no_word {S W : Nat} {r : Residue} (h : r.held + S < W) (d : Nat) :
    packStep S W r d = ([], ⟨r.acc * 2 ^ S + maskTo S d, r.held + S⟩) := by
  rw [packStep, drain_lt_held h, ← Residue.shiftIn_acc (maskTo_lt S d)]
  rfl

/-- A code that fills one word sends the top `W` bits out; the bits below them stay. -/
theorem packStep_one_word {S W : Nat} {r : Residue} (h : W ≤ r.held + S) (h2 : r.held + S < 2 * W) (d : Nat) :
    packStep S W r d =
      ([maskTo W ((r.acc * 2 ^ S + maskTo S d) / 2 ^ (r.held + S - W))],
        ⟨(r.acc * 2 ^ S + maskTo S d) % 2 ^ (r.held + S - W), r.held + S - W⟩) := by
  obtain ⟨limit, hlimit⟩ : ∃ limit, r.held + S = limit + 1 := Nat.exists_eq_succ_of_ne_zero (by omega)
  have hrest : ((r.shiftIn S (maskTo S d)).dropTop W).held < W := by
    rw [Residue.dropTop_held, Residue.shiftIn_held]; omega
  rw [packStep, hlimit, drain_succ h, drain_lt_held hrest, Residue.top, Residue.dropTop,
    Residue.shiftIn_acc (maskTo_lt S d), Residue.shiftIn_held, Nat.shiftRight_eq_div_pow, hlimit]
  rfl

/-- Narrowing to `n` bits masks already. -/
@[simp] theorem ofNat_maskTo (n v : Nat) : BitVec.ofNat n (maskTo n v) = BitVec.ofNat n v :=
  BitVec.eq_of_toNat_eq (Nat.mod_mod v (2 ^ n))

/-- Settles O20: the code fills a word when at least 11 bits are held. -/
theorem pkPushAppendsACode : Obligations.PkPushAppendsACode := by
  rintro d s ⟨h15, -⟩
  have hmask : maskTo 5 d.toNat = d.toNat % 32 := rfl
  rw [exec_pkPush]
  by_cases h : s.pk.held.toNat < 11
  · rw [packStep_no_word (r := s.pk.residue) (show s.pk.held.toNat + 5 < 16 by omega)]
    simp [h, hmask, State.emitPk, State.writePk, Packer.residue]
  · have hrest : s.pk.held.toNat + 5 - 16 = s.pk.held.toNat - 11 := by omega
    rw [packStep_one_word (r := s.pk.residue) (show 16 ≤ s.pk.held.toNat + 5 by omega)
      (show s.pk.held.toNat + 5 < 2 * 16 by omega)]
    simp [h, hmask, hrest, State.emitPk, State.writePk, Packer.residue]

/-! PK.FLUSH (R62). -/

theorem Packer.residue_held_eq_zero_iff (p : Packer) : p.residue.held = 0 ↔ p.held = 0#5 :=
  BitVec.toNat_inj (y := 0#5)

/-- The word the flush emits, on the packer's registers. -/
theorem packFinish_residue (p : Packer) : (packFinish 16 p.residue).map (BitVec.ofNat 16) =
    if p.held = 0#5 then [] else [BitVec.ofNat 16 (p.acc.toNat * 2 ^ (16 - p.held.toNat))] := by
  rw [packFinish]
  by_cases h : p.held = 0#5
  · have hheld : ¬ 0 < p.residue.held := by simp [p.residue_held_eq_zero_iff.2 h]
    rw [if_neg hheld, if_pos h, List.map_nil]
  · have hheld : 0 < p.residue.held := Nat.pos_iff_ne_zero.2 fun h0 => h (p.residue_held_eq_zero_iff.1 h0)
    rw [if_pos hheld, if_neg h, List.map_singleton, ofNat_maskTo, Nat.shiftLeft_eq]
    rfl

/-- An empty packer has nothing to flush. -/
theorem exec_pkFlush_of_empty {s : State} (h : s.pk = ⟨0#20, 0#5⟩) (opd : Operand) :
    exec (.pkFlush opd) s = .next s := by
  obtain ⟨pk, up, dc, pkOut, upOut, dcOut, tables, pending⟩ := s
  obtain rfl : pk = ⟨0#20, 0#5⟩ := h
  simp [exec_pkFlush, Packer.residue_zero, packFinish, State.emitPk, State.writePk]

/-- Settles O21: the first flush empties the unit, so the second finds nothing. -/
theorem pkFlushEmitsTheResidue : Obligations.PkFlushEmitsTheResidue := by
  intro opd s _
  constructor
  · rw [exec_pkFlush, ← packFinish_residue]
    rfl
  · rw [execAll_cons (exec_pkFlush opd s), execAll_cons (exec_pkFlush_of_empty rfl opd), exec_pkFlush, execAll_nil]

/-! How many words (R64). -/

/-- The bits taken in: those of the words emitted, and those held. -/
def State.packedBits (s : State) : Nat :=
  s.pkOut.length * 16 + s.pk.held.toNat

/-- Within R13 the bits taken in fix how many words are out and how many bits are held. -/
theorem State.counts_of_packedBits {s t : State} (h : t.pk.Inv) {n : Nat}
    (hbits : t.packedBits = s.pkOut.length * 16 + n) :
    t.pkOut.length = s.pkOut.length + n / 16 ∧ t.pk.held.toNat = n % 16 := by
  obtain ⟨h15, -⟩ := h
  unfold State.packedBits at hbits
  omega

/-- Every bit held or shifted in goes out or stays (R61). -/
theorem packStep_conserves (S W : Nat) (r : Residue) (d : Nat) :
    (packStep S W r d).1.length * W + (packStep S W r d).2.held = r.held + S :=
  drain_held _ _ _

/-- A push takes five bits in (R61). -/
theorem exec_pkPush_packedBits {s : State} (h : s.pk.Inv) (d : Operand) :
    ∃ t, exec (.pkPush d) s = .next t ∧ t.pk.Inv ∧ t.packedBits = s.packedBits + 5 := by
  have hexec := exec_pkPush d s
  obtain ⟨hres, hinv⟩ := pkPush_residue h d
  have hbits : _ = s.pk.held.toNat + 5 := packStep_conserves 5 16 s.pk.residue d.toNat
  generalize packStep 5 16 s.pk.residue d.toNat = out at hexec hres hinv hbits
  have hheld : (s.writePk out.2).pk.held.toNat = out.2.held := congrArg Residue.held hres
  refine ⟨_, hexec, hinv, ?_⟩
  rw [State.packedBits, State.packedBits, State.emitPk_pk, hheld, State.emitPk_pkOut, List.length_append,
    List.length_map, State.writePk_pkOut]
  omega

/-- `n` pushes take `5n` bits in. -/
theorem execAll_pkPush_packedBits {s : State} (h : s.pk.Inv) (codes : List Operand) :
    ∃ t, execAll (codes.map Instr.pkPush) s = .next t ∧ t.pk.Inv ∧
      t.packedBits = s.packedBits + codes.length * 5 := by
  induction codes generalizing s with
  | nil => exact ⟨s, rfl, h, rfl⟩
  | cons d codes ih =>
    obtain ⟨t, ht, hinv, hbits⟩ := exec_pkPush_packedBits h d
    obtain ⟨u, hu, hinv', hbits'⟩ := ih hinv
    refine ⟨u, by rw [List.map_cons, execAll_cons ht, hu], hinv', ?_⟩
    rw [hbits', hbits, List.length_cons]
    omega

/-- Settles O22: the pushes conserve bits, and the flush adds the word of those left. -/
theorem wordsPerPush : Obligations.WordsPerPush := by
  refine ⟨fun d s h => ?_, fun codes opd s h0 => ?_⟩
  · obtain ⟨t, ht, hinv, hbits⟩ := exec_pkPush_packedBits h d
    exact ⟨t, ht, State.counts_of_packedBits hinv (hbits.trans (Nat.add_assoc _ _ _))⟩
  · obtain ⟨t, ht, hinv, hbits⟩ := execAll_pkPush_packedBits (h0 ▸ Packer.inv_zero) codes
    have hempty : s.packedBits = s.pkOut.length * 16 := by rw [State.packedBits, h0]; rfl
    obtain ⟨hwords, hheld⟩ := State.counts_of_packedBits hinv (hempty ▸ hbits)
    refine ⟨t, _, ht, exec_pkFlush opd t, hwords, hheld, ?_⟩
    rw [← hheld, State.writePk_pkOut, State.emitPk_pkOut, List.length_append, List.length_map, packFinish_length]
    rfl

/-! What one command emits (R106). -/

/-- One push takes in five bits and one flush pads one residue (R62, R64). -/
theorem exec_pkOut_length_le {i : Instr} {s t : State} (hs : s.pk.Inv) (h : exec i s = .next t) :
    t.pkOut.length ≤ s.pkOut.length + 1 := by
  cases i with
  | pkStart opd => cases h; exact Nat.le_succ _
  | pkPush d =>
    obtain ⟨t', ht', hwords, -⟩ := wordsPerPush.1 d s hs
    obtain rfl : t' = t := Host.Outcome.next.inj (ht'.symm.trans h)
    obtain ⟨h15, -⟩ := hs
    omega
  | pkFlush opd =>
    cases h
    rw [State.writePk_pkOut, State.emitPk_pkOut, List.length_append, List.length_map, packFinish_length]
    split <;> omega
  | upStart _ | upPush _ | dcStart _ | dcPush _ =>
    rw [(exec_keeps_pk h (by simp [Instr.unit])).2]
    exact Nat.le_succ _

/-- Before the last code at most four bits are held (R18). -/
theorem Unpacker.held_le_of_not_done {u : Unpacker} (h : u.Inv) (hd : u.emitted ≠ u.count) : u.held.toNat ≤ 4 := by
  obtain ⟨hle, -, h4, -⟩ := h
  exact h4 (lt_of_le_of_ne hle fun he => hd (BitVec.eq_of_toNat_eq he))

/-- At most 4 bits held and 16 of a word hold four codes (R75). -/
theorem exec_upOut_length_le {i : Instr} {s t : State} (hs : s.up.Inv) (h : exec i s = .next t) :
    t.upOut.length ≤ s.upOut.length + 4 := by
  cases i with
  | upStart n => cases h; exact Nat.le_add_right _ _
  | upPush w =>
    by_cases hd : s.up.emitted = s.up.count
    · rw [exec_upPush_done hd] at h
      cases h
      exact Nat.le_add_right _ _
    · have h4 : s.up.residue.held ≤ 4 := Unpacker.held_le_of_not_done hs hd
      rw [exec_upPush hd] at h
      cases h
      rw [State.emitUp_upOut, List.length_append, List.length_map, unpackStep_length (by omega)]
      simp only [State.writeEmitted_upOut, State.writeUp_upOut]
      omega
  | pkStart _ | pkPush _ | pkFlush _ | dcStart _ | dcPush _ =>
    rw [(exec_keeps_up h (by simp [Instr.unit])).2]
    exact Nat.le_add_right _ _

theorem entryOutput_length_le (e : TableEntry) : (entryOutput e).length ≤ 1 := by
  cases e <;> simp [entryOutput]

theorem exec_dcOut_length_le {i : Instr} {s t : State} (h : exec i s = .next t) :
    t.dcOut.length ≤ s.dcOut.length + 1 := by
  cases i with
  | dcStart opd => cases h; exact Nat.le_succ _
  | dcPush d =>
    cases h
    rw [State.emitDc_dcOut, List.length_append]
    exact Nat.add_le_add_left (entryOutput_length_le _) _
  | pkStart _ | pkPush _ | pkFlush _ | upStart _ | upPush _ =>
    rw [(exec_keeps_dc h (by simp [Instr.unit])).2]
    exact Nat.le_succ _

/-- Settles O33: one bound per stream. -/
theorem outputsPerCommandAreBounded : Obligations.OutputsPerCommandAreBounded := by
  rintro i s ⟨hpk, hup⟩
  obtain ⟨t, ht, -⟩ := exec_next i s
  exact ⟨t, ht, exec_pkOut_length_le hpk ht, exec_upOut_length_le hup ht, exec_dcOut_length_le ht⟩

/-! Truncation of the data (R94). -/

theorem maskTo_maskTo (n v : Nat) : maskTo n (maskTo n v) = maskTo n v :=
  Nat.mod_mod v (2 ^ n)

/-- The packer masks every datum itself. -/
theorem packFrom_map_maskTo (S W : Nat) (r : Residue) (codes : List Nat) :
    packFrom S W r (codes.map (maskTo S)) = packFrom S W r codes := by
  induction codes generalizing r with
  | nil => rfl
  | cons d codes ih =>
    have hstep : packStep S W r (maskTo S d) = packStep S W r d := by rw [packStep, packStep, maskTo_maskTo]
    rw [List.map_cons, packFrom, packFrom, hstep, ih]

theorem toNat_and_code_mask (d : Operand) : (d &&& 0x001F#16).toNat = maskTo 5 d.toNat :=
  Nat.and_two_pow_sub_one_eq_mod d.toNat 5

/-- Settles O37: the masked data are the data with `maskTo 5` applied, which the packer applies in any case. -/
theorem packTruncatesSilently : Obligations.PackTruncatesSilently := by
  intro codes s
  have hdata : (codes.map fun d => d &&& 0x001F#16).map BitVec.toNat =
      (codes.map BitVec.toNat).map (maskTo 5) := by
    rw [List.map_map, List.map_map]
    exact List.map_congr_left fun d _ => toNat_and_code_mask d
  rw [execAll_packCommands, execAll_packCommands, hdata, packWith, packWith, packFrom_map_maskTo]

/-! The register widths (R63, R74). -/

/-- What fits before the shift and holds at most 20 bits after it is below `2^20`. -/
theorem Residue.shiftIn_acc_lt {n v : Nat} (hv : v < 2 ^ n) {r : Residue} (hr : r.Fits) (hh : r.held + n ≤ 20) :
    (r.shiftIn n v).acc < 2 ^ 20 :=
  lt_of_lt_of_le (Residue.shiftIn_fits hv hr) (Nat.pow_le_pow_right (by omega) hh)

/-- Settles O45: a push holds at most 15 + 5 or 4 + 16 bits, and whole sequences append what the algorithms on
unbounded naturals answer. -/
theorem registersAreWideEnough : Obligations.RegistersAreWideEnough := by
  refine ⟨fun d s h => ?_, fun w s h hd => ?_, fun codes s => ?_, fun n words s => ?_⟩
  · obtain ⟨h15, hfits⟩ := s.pk.inv_iff.1 h
    have hheld : s.pk.residue.held + 5 ≤ 20 := by omega
    exact ⟨Residue.shiftIn_acc_lt (maskTo_lt 5 _) hfits hheld, hheld⟩
  · obtain ⟨-, hfits, -⟩ := s.up.inv_iff.1 h
    have hheld : s.up.residue.held + 16 ≤ 20 := Nat.add_le_add_right (Unpacker.held_le_of_not_done h hd) 16
    exact ⟨Residue.shiftIn_acc_lt w.isLt hfits hheld, hheld⟩
  · exact ⟨_, execAll_packCommands codes s, rfl, packWith_lt 5 16 _⟩
  · obtain ⟨u, hu, -⟩ := execAll_unpackCommands n words s
    exact ⟨_, hu, rfl, unpackWith_lt 5 16 _ _⟩

end Sys2Proof.Machine

/-! PROOFS. The unpacker's commands (spec/41_unpacker.md): each in closed form, the words it discards, and what an UNPACK
does with pad bits, surplus bits and a wrong count. -/

namespace Sys2Proof.Machine

/-- Settles O23: the empty residue, a zero count of codes emitted and the count asked for, in the unpacker's registers. -/
theorem upStartLoadsTheCount : Obligations.UpStartLoadsTheCount :=
  exec_upStart

/-! Words pushed when done (R72, R135). -/

/-- Settles O25. -/
theorem upPushWhenDoneIsDiscarded : Obligations.UpPushWhenDoneIsDiscarded :=
  fun w _ hdone => exec_upPush_done hdone w

/-- Discarding a word leaves the unpacker done, so a whole sequence is discarded. -/
theorem execAll_upPush_done {s : State} (hdone : s.up.emitted = s.up.count) (words : List PackedWord) :
    execAll (words.map Instr.upPush) s = .next s := by
  induction words with
  | nil => rfl
  | cons w words ih => rw [List.map_cons, execAll_cons (exec_upPush_done hdone w), ih]

/-- Settles O26: RESET makes the count and the codes emitted both zero. -/
theorem unpackerNeedsAStart : Obligations.UnpackerNeedsAStart := by
  intro words s hreset
  have hdone : s.up.emitted = s.up.count := by rw [hreset]; rfl
  exact execAll_upPush_done hdone words

/-! UP.PUSH (R71). -/

/-- The emission loop in closed form: the leading groups of `n` bits go out, the bits below them stay. -/
theorem drain_eq {n : Nat} (hn : 0 < n) (limit : Nat) {r : Residue} (hr : r.Fits) {k : Nat}
    (hk : k = min limit (r.held / n)) :
    drain n limit r = ((List.range k).map fun j => maskTo n (r.acc / 2 ^ (r.held - n * (j + 1))),
      ⟨r.acc % 2 ^ (r.held - n * k), r.held - n * k⟩) := by
  have hlen : (drain n limit r).1.length = k := (drain_length hn limit r).trans hk.symm
  have hheld : (drain n limit r).2.held = r.held - n * k := by
    have hsplit := drain_held n limit r
    rw [hlen, Nat.mul_comm] at hsplit
    omega
  have hcodes : (drain n limit r).1 =
      (List.range k).map fun j => maskTo n (r.acc / 2 ^ (r.held - n * (j + 1))) := by
    refine List.ext_getElem? fun j => ?_
    by_cases hj : j < k
    · rw [drain_getElem? n limit r j (hlen ▸ hj), List.getElem?_map, List.getElem?_range hj]
      rfl
    · rw [List.getElem?_eq_none (by omega), List.getElem?_eq_none (by simpa using hj)]
  rw [← hcodes, ← hheld, ← drain_acc n limit hr]

/-- Settles O24: the emission loop's closed form on the bits held followed by the word. -/
theorem upPushExtractsCodes : Obligations.UpPushExtractsCodes := by
  rintro w s ⟨-, hfits, -⟩
  by_cases hdone : s.up.emitted = s.up.count
  · rw [exec_upPush_done hdone]
    simp [hdone]
  · have hk : min ((s.up.held.toNat + 16) / 5) (s.up.count.toNat - s.up.emitted.toNat) =
        min (s.up.count.toNat - s.up.emitted.toNat) ((s.up.residue.shiftIn 16 w.toNat).held / 5) := min_comm _ _
    have hdrain := drain_eq (by omega) _ (Residue.shiftIn_fits (r := s.up.residue) w.isLt hfits) hk
    rw [Residue.shiftIn_acc w.isLt] at hdrain
    rw [exec_upPush hdone, unpackStep, hdrain]
    simp [hdone, State.emitUp, State.writeEmitted, State.writeUp, Unpacker.residue]

/-! Bits an UNPACK does not look at (R77, R98). -/

/-- The codes depend on the bits asked for only. -/
theorem unpackWith_congr {S W n : Nat} (hS : 0 < S) {words words' : List Nat} (hw : ∀ v ∈ words, v < 2 ^ W)
    (hw' : ∀ v ∈ words', v < 2 ^ W) (hlen : words.length = words'.length)
    (hbits : (streamBits W words).take (min n (words.length * W / S) * S) =
      (streamBits W words').take (min n (words.length * W / S) * S)) :
    unpackWith S W n words = unpackWith S W n words' := by
  have hcount := unpackWith_length hS W n words
  have hcount' : (unpackWith S W n words').length = min n (words.length * W / S) := by
    rw [unpackWith_length hS, hlen]
  refine streamBits_inj (unpackWith_lt S W n _) (unpackWith_lt S W n _) (hcount.trans hcount'.symm) ?_
  rw [unpackWith_bits S W n hw, unpackWith_bits S W n hw', hcount, hcount', hbits]

/-- Settles O39: both states get what `unpackWith` answers. -/
theorem unpackIgnoresLaterBits : Obligations.UnpackIgnoresLaterBits := by
  intro n words words' s s' hlen hbits
  have hsame : unpackWith 5 16 n.toNat (words.map BitVec.toNat) = unpackWith 5 16 n.toNat (words'.map BitVec.toNat) :=
    unpackWith_congr (by omega) (toNat_lt_of_mem_map words) (toNat_lt_of_mem_map words') (by simpa using hlen)
      (by rw [List.length_map]; exact hbits)
  obtain ⟨u, hu, -⟩ := execAll_unpackCommands n words s
  obtain ⟨u', hu', -⟩ := execAll_unpackCommands n words' s'
  rw [← hsame] at hu'
  exact ⟨_, _, _, hu, hu', rfl, rfl⟩

/-! An UNPACK with another count than the PACK's (R73, R101). -/

theorem streamBits_take (n k : Nat) (vs : List Nat) : streamBits n (vs.take k) = (streamBits n vs).take (k * n) := by
  rcases Nat.le_total k vs.length with hk | hk
  · conv_rhs => rw [← List.take_append_drop k vs, streamBits_append]
    exact (List.take_left' (by simp [hk])).symm
  · rw [List.take_of_length_le hk, List.take_of_length_le (by simpa using Nat.mul_le_mul_right n hk)]

/-- Zero values are zero bits. -/
theorem streamBits_replicate_zero (n k : Nat) : streamBits n (List.replicate k 0) = List.replicate (k * n) false := by
  induction k with
  | zero => simp
  | succ k ih =>
    rw [List.replicate_succ, streamBits_cons, ih, msbBits_zero_value, List.replicate_append_replicate, Nat.succ_mul,
      Nat.add_comm]

/-- When `vs` are all the whole codes the words hold, an UNPACK of `n` codes answers the first `n` of them (R97, R98). -/
theorem unpackWith_eq_take {S W : Nat} (hS : 0 < S) (n : Nat) {words vs : List Nat} (hw : ∀ v ∈ words, v < 2 ^ W)
    (hvs : ∀ v ∈ vs, v < 2 ^ S) (hlen : vs.length = words.length * W / S)
    (hbits : streamBits S vs <+: streamBits W words) : unpackWith S W n words = vs.take n := by
  have hcount : (unpackWith S W n words).length = (vs.take n).length := by
    rw [unpackWith_length hS, ← hlen, List.length_take]
  refine streamBits_inj (unpackWith_lt S W n _) (fun v hv => hvs v (List.mem_of_mem_take hv)) hcount ?_
  have hprefix : streamBits S (vs.take n) <+: streamBits W words := by
    rw [streamBits_take]
    exact (List.take_prefix _ _).trans hbits
  rw [unpackWith_bits S W n hw, hcount, List.prefix_iff_eq_take.1 hprefix, streamBits_length]

/-- The whole codes in the words of a PACK: those packed, and zero codes made of pad bits (R93, R101). -/
theorem codes_append_zeros_prefix_packWith (S : Nat) {W : Nat} (hW : 0 < W) (codes : List Nat) :
    streamBits S (codes.map (maskTo S) ++
      List.replicate ((packWith S W codes).length * W / S - codes.length) 0) <+: streamBits W (packWith S W codes) := by
  have hpad : ((packWith S W codes).length * W / S - codes.length) * S ≤
      (packWith S W codes).length * W - codes.length * S := by
    rw [Nat.sub_mul]
    exact Nat.sub_le_sub_right (Nat.div_mul_le_self _ _) _
  rw [packWith_bits S hW, streamBits_append, streamBits_replicate_zero, List.prefix_append_right_inj]
  exact ⟨List.replicate _ false, by rw [List.replicate_append_replicate, Nat.add_sub_cancel' hpad]⟩

/-- UNPACK of any count after PACK (R101). -/
theorem unpackWith_packWith_any_count {S W : Nat} (hS : 0 < S) (hW : 0 < W) (n : Nat) (codes : List Nat) :
    unpackWith S W n (packWith S W codes) = (codes.map (maskTo S)).take n ++
      List.replicate (min n ((packWith S W codes).length * W / S) - codes.length) 0 := by
  have hroom : codes.length ≤ (packWith S W codes).length * W / S := by
    rw [packWith_length S hW]
    exact (Nat.le_div_iff_mul_le hS).2 (le_ceilDiv_mul hW _)
  have hfit : ∀ v ∈ codes.map (maskTo S) ++
      List.replicate ((packWith S W codes).length * W / S - codes.length) 0, v < 2 ^ S := by
    intro v hv
    rcases List.mem_append.1 hv with hv | hv
    · obtain ⟨c, -, rfl⟩ := List.mem_map.1 hv
      exact maskTo_lt S c
    · rw [List.eq_of_mem_replicate hv]
      exact Nat.two_pow_pos S
  have hcount : (codes.map (maskTo S) ++
      List.replicate ((packWith S W codes).length * W / S - codes.length) 0).length =
        (packWith S W codes).length * W / S := by
    rw [List.length_append, List.length_map, List.length_replicate, Nat.add_sub_cancel' hroom]
  rw [unpackWith_eq_take hS n (packWith_lt S W codes) hfit hcount
    (codes_append_zeros_prefix_packWith S hW codes), List.take_append, List.take_replicate, List.length_map]
  congr 2
  omega

/-- The symbol codes of the data, as the packer masks them (R45, R53). -/
theorem map_ofNat_maskTo_eq_symbolOf (codes : List Operand) :
    ((codes.map BitVec.toNat).map (maskTo 5)).map (BitVec.ofNat 5) = codes.map symbolOf := by
  rw [List.map_map, List.map_map]
  refine List.map_congr_left fun d _ => BitVec.eq_of_toNat_eq ?_
  rw [symbolOf_toNat, Function.comp_apply, Function.comp_apply, ofNat_maskTo]
  rfl

/-- Settles O41: the words hold the codes and then zero codes, of which UNPACK takes the first `n`. -/
theorem wrongCountUnpacksPadBits : Obligations.WrongCountUnpacksPadBits := by
  intro codes n s
  obtain ⟨t, hpack, hpkOut, hupOut⟩ : ∃ t, execAll (packCommands codes) s = .next t ∧
      t.pkOut = s.pkOut ++ (packWith 5 16 (codes.map BitVec.toNat)).map (BitVec.ofNat 16) ∧ t.upOut = s.upOut :=
    ⟨_, execAll_packCommands codes s, rfl, rfl⟩
  obtain ⟨u, hunpack, -⟩ := execAll_unpackCommands n ((packWith 5 16 (codes.map BitVec.toNat)).map (BitVec.ofNat 16)) t
  refine ⟨_, t, _, hpack, hpkOut, hunpack, ?_⟩
  rw [map_toNat_map_ofNat (packWith_lt 5 16 _), unpackWith_packWith_any_count (by omega) (by omega), hupOut,
    List.map_append, List.map_take, map_ofNat_maskTo_eq_symbolOf, List.map_replicate, List.length_map, List.length_map]

end Sys2Proof.Machine

/-! PROOFS. The decoder's commands (spec/42_decoder.md): the state DC.START sets, what DC.PUSH does for each kind of
table entry, and the text of a DECODE. -/

namespace Sys2Proof.Machine

/-- Settles O27: LETTERS in the decoder's one register. -/
theorem dcStartSetsLetters : Obligations.DcStartSetsLetters :=
  exec_dcStart

/-! What an entry of each kind says (R48). -/

theorem entryOf_absent {e : EntryBits} (h : entryKind e = 0b00#2) : entryOf e = .absent := by
  simp [entryOf, h]

theorem entryOf_char {e : EntryBits} (h : entryKind e = 0b01#2) : entryOf e = .char (entryPayload e) := by
  simp [entryOf, h]

theorem entryOf_shift {e : EntryBits} (h : entryKind e = 0b10#2) : entryOf e = .shift (e.extractLsb' 0 1) := by
  simp [entryOf, h, entryPayload_low_bit]

theorem entryOf_null {e : EntryBits} (h : entryKind e = 0b11#2) : entryOf e = .null := by
  simp [entryOf, h]

/-! DC.PUSH (R81). -/

/-- Writing the state the decoder is in changes nothing. -/
@[simp] theorem State.writeShift_self (s : State) : s.writeShift s.dc.shift = s := rfl

/-- Emitting no character changes nothing. -/
@[simp] theorem State.emitDc_nil (s : State) : s.emitDc [] = s := by
  simp [State.emitDc]

/-- DC.PUSH by the entry it reads: the row of the transition table (R86). -/
theorem exec_dcPush_of_entry {d : Operand} {s : State} {e : TableEntry}
    (h : entryOf (tableRead s.tables (tableAddress s.dc.shift (symbolOf d))) = e) :
    exec (.dcPush d) s = .next ((s.writeShift (entryNext s.dc.shift e)).emitDc (entryOutput e)) := by
  rw [exec_dcPush, lookup, h]

/-- Settles O28: the entry at the address R31 computes, and for each kind its row of the transition table. -/
theorem dcPushFollowsTheEntry : Obligations.DcPushFollowsTheEntry := by
  refine fun d s => ⟨_, getElem?_tableAddress s.tables s.dc.shift d, fun absent => ?_, fun char => ?_,
    fun shift => ?_, fun null => ?_⟩
  · exact exec_dcPush_of_entry (entryOf_absent absent)
  · exact exec_dcPush_of_entry (entryOf_char char)
  · rw [exec_dcPush_of_entry (entryOf_shift shift), entryOutput, State.emitDc_nil]
    rfl
  · rw [exec_dcPush_of_entry (entryOf_null null), entryOutput, State.emitDc_nil, entryNext, State.writeShift_self]

/-! The text of a DECODE (R102). -/

/-- Each code contributes at most one character, in either state. -/
theorem decodeFrom_length_le (rom : TableRom) (st : BitVec 1) (codes : List Code) :
    (decodeFrom rom st codes).length ≤ codes.length := by
  induction codes generalizing st with
  | nil => exact le_rfl
  | cons c codes ih =>
    have hone := entryOutput_length_le (entryOf (tableRead rom (tableAddress st c)))
    have hrest := ih (entryNext st (entryOf (tableRead rom (tableAddress st c))))
    rw [decodeFrom_cons, List.length_append, List.length_cons]
    omega

/-- Settles O42: the run of a DECODE sequence, and one character at most per code. -/
theorem decodeEmitsTheText : Obligations.DecodeEmitsTheText := by
  intro codes s
  obtain ⟨dc, hdc⟩ := execAll_decodeCommands codes s
  exact ⟨dc, hdc, by simpa [decodeText] using decodeFrom_length_le s.tables Config.LETTERS (codes.map symbolOf)⟩

end Sys2Proof.Machine

/-! PROOFS. The composite properties (spec/43_composite.md): the layout of a PACK, its numeral form, the round trip
through UNPACK, and the message TEST 123 through all three units. -/

namespace Sys2Proof.Machine

/-! The words of a PACK (R90 to R93, R95). -/

/-- The words a PACK appends (R90). -/
def packedWords (codes : List Operand) : List PackedWord :=
  (packWith 5 16 (codes.map BitVec.toNat)).map (BitVec.ofNat 16)

/-- A PACK from any state, by its words. -/
theorem execAll_packCommands_eq_packedWords (codes : List Operand) (s : State) :
    execAll (packCommands codes) s = .next { s with
      pk := ⟨0#20, 0#5⟩
      pkOut := s.pkOut ++ packedWords codes } :=
  execAll_packCommands codes s

theorem packedWords_map_toNat (codes : List Operand) :
    (packedWords codes).map BitVec.toNat = packWith 5 16 (codes.map BitVec.toNat) :=
  map_toNat_map_ofNat (packWith_lt 5 16 _)

theorem length_packedWords_eq_packWith (codes : List Operand) :
    (packedWords codes).length = (packWith 5 16 (codes.map BitVec.toNat)).length :=
  List.length_map _

theorem packedWords_length (codes : List Operand) : (packedWords codes).length = ceilDiv (codes.length * 5) 16 := by
  rw [length_packedWords_eq_packWith, packWith_length 5 (by omega), List.length_map]

/-- The padding is shorter than a word (R93). -/
theorem packWith_pad_lt (S : Nat) {W : Nat} (hW : 0 < W) (codes : List Nat) :
    (packWith S W codes).length * W - codes.length * S < W := by
  obtain ⟨p, hp, hbits⟩ := packWith_layout S hW codes
  have hlen : (packWith S W codes).length * W = codes.length * S + p := by
    simpa using congrArg List.length hbits
  omega

/-- The symbol codes of the data as numbers are the data masked as the packer masks them (R45, R53). -/
theorem map_toNat_map_symbolOf (codes : List Operand) :
    (codes.map symbolOf).map BitVec.toNat = (codes.map BitVec.toNat).map (maskTo 5) := by
  rw [List.map_map, List.map_map]
  exact List.map_congr_left fun d _ => symbolOf_toNat d

theorem wordStream_packedWords (codes : List Operand) :
    wordStream (packedWords codes) = codeStream (codes.map symbolOf) ++
      List.replicate ((packedWords codes).length * 16 - codes.length * 5) false := by
  rw [wordStream, packedWords_map_toNat, packWith_bits 5 (by omega), codeStream, map_toNat_map_symbolOf,
    length_packedWords_eq_packWith, List.length_map]

/-- Settles O34: the words of `packWith` at the widths 5 and 16. -/
theorem packLaysCodesOutMsbFirst : Obligations.PackLaysCodesOutMsbFirst := by
  intro codes s
  refine ⟨packedWords codes, execAll_packCommands_eq_packedWords codes s, packedWords_length codes,
    wordStream_packedWords codes, ?_⟩
  have hpad := packWith_pad_lt 5 (W := 16) (by omega) (codes.map BitVec.toNat)
  rw [← length_packedWords_eq_packWith, List.length_map] at hpad
  omega

/-! The numeral form (R92). -/

/-- Appending `p` zero bits to a stream multiplies its numeral by `2 ^ p`, whatever the two digit widths. -/
theorem numeral_eq_mul_of_streamBits_eq {m n p : Nat} {ws vs : List Nat} (hw : ∀ w ∈ ws, w < 2 ^ m)
    (hv : ∀ v ∈ vs, v < 2 ^ n) (hbits : streamBits m ws = streamBits n vs ++ List.replicate p false) :
    numeral m ws = numeral n vs * 2 ^ p := by
  obtain ⟨hwbits, hwlt⟩ := numeral_stream m ws hw
  obtain ⟨hvbits, hvlt⟩ := numeral_stream n vs hv
  have hlen : ws.length * m = vs.length * n + p := by simpa using congrArg List.length hbits
  have hshift : numeral n vs * 2 ^ p = (numeral n vs <<< p) ||| 0 := by rw [Nat.or_zero, Nat.shiftLeft_eq]
  rw [hlen] at hwbits hwlt
  refine msbBits_inj hwlt ?_ ?_
  · rw [Nat.pow_add]
    exact Nat.mul_lt_mul_of_pos_right hvlt (Nat.two_pow_pos p)
  · rw [hwbits, hbits, hshift, msbBits_shiftIn (Nat.two_pow_pos p), hvbits, msbBits_zero_value]

/-- The numeral of a PACK, for every pair of widths (R92). -/
theorem numeral_packWith (S : Nat) {W : Nat} (hW : 0 < W) (codes : List Nat) :
    numeral W (packWith S W codes) =
      numeral S (codes.map (maskTo S)) * 2 ^ ((packWith S W codes).length * W - codes.length * S) :=
  numeral_eq_mul_of_streamBits_eq (packWith_lt S W codes) (List.forall_mem_map.2 fun v _ => maskTo_lt S v)
    (packWith_bits S hW codes)

/-- Settles O36: the streams of O34 read as numbers. -/
theorem packAsOneNumber : Obligations.PackAsOneNumber := by
  intro codes s
  refine ⟨packedWords codes, execAll_packCommands_eq_packedWords codes s, ?_⟩
  have hdigits : (codes.map fun d => d.toNat % 32) = (codes.map BitVec.toNat).map (maskTo 5) := by
    rw [List.map_map]
    rfl
  rw [packedWords_map_toNat, numeral_packWith 5 (by omega), length_packedWords_eq_packWith, hdigits, List.length_map]

/-! The round trip (R99). -/

/-- An UNPACK of a PACK's words with the number of codes, from any state. The count is a 16-bit datum. -/
theorem execAll_unpackCommands_packedWords {codes : List Operand} (h : codes.length ≤ 65535) (s : State) :
    ∃ u : Unpacker, execAll (unpackCommands (BitVec.ofNat 16 codes.length) (packedWords codes)) s =
      .next { s with up := u, upOut := s.upOut ++ codes.map symbolOf } := by
  obtain ⟨u, hu, -⟩ := execAll_unpackCommands (BitVec.ofNat 16 codes.length) (packedWords codes) s
  have hcount : (BitVec.ofNat 16 codes.length).toNat = (codes.map BitVec.toNat).length := by
    rw [List.length_map]
    exact Nat.mod_eq_of_lt (Nat.lt_succ_of_le h)
  rw [hcount, packedWords_map_toNat, unpackWith_packWith (by omega) (by omega), map_ofNat_maskTo_eq_symbolOf] at hu
  exact ⟨u, hu⟩

/-- Settles O40: the packed stream starts with the codes asked for. -/
theorem packThenUnpackGivesTheCodes : Obligations.PackThenUnpackGivesTheCodes := by
  intro codes s hlen
  obtain ⟨u, hu⟩ := execAll_unpackCommands_packedWords hlen
    { s with pk := ⟨0#20, 0#5⟩, pkOut := s.pkOut ++ packedWords codes }
  exact ⟨packedWords codes, _, _, execAll_packCommands_eq_packedWords codes s, rfl, hu, rfl⟩

/-! The message through all three units (R103). -/

@[simp] theorem symbolOf_operandOfCode (c : Code) : symbolOf (operandOfCode c) = c := by
  rw [symbolOf, operandOfCode, BitVec.extractLsb'_setWidth_of_le (by omega), BitVec.extractLsb'_eq_self]

theorem map_symbolOf_map_operandOfCode (cs : List Code) : (cs.map operandOfCode).map symbolOf = cs := by
  rw [List.map_map]
  exact (List.map_congr_left fun c _ => symbolOf_operandOfCode c).trans (List.map_id cs)

/-- A table read is the entry found at the place R31 computes. -/
theorem tableRead_of_getElem? {rom : TableRom} {st : BitVec 1} {c : Code} {e : EntryBits}
    (h : rom[32 * st.toNat + c.toNat]? = some e) : tableRead rom (tableAddress st c) = e := by
  rw [← tableAddress_toNat] at h
  exact (Vector.getElem?_eq_some_iff.1 h).2

/-- A CHAR entry emits its payload and keeps the state (R86). -/
theorem decodeFrom_cons_char {rom : TableRom} {st : BitVec 1} {c : Code} {e : EntryBits}
    (h : rom[32 * st.toNat + c.toNat]? = some e) (hkind : entryKind e = 0b01#2) (cs : List Code) :
    decodeFrom rom st (c :: cs) = entryPayload e :: decodeFrom rom st cs := by
  rw [decodeFrom_cons, tableRead_of_getElem? h, entryOf_char hkind]
  rfl

/-- A SHIFT entry emits nothing and leads to the state it names (R86). -/
theorem decodeFrom_cons_shift {rom : TableRom} {st : BitVec 1} {c : Code} {e : EntryBits}
    (h : rom[32 * st.toNat + c.toNat]? = some e) (hkind : entryKind e = 0b10#2) (cs : List Code) :
    decodeFrom rom st (c :: cs) = decodeFrom rom (e.extractLsb' 0 1) cs := by
  rw [decodeFrom_cons, tableRead_of_getElem? h, entryOf_shift hkind]
  rfl

/-- The tables of R103 decode the nine codes of the message to its eight characters: LETTERS until the shift entry,
FIGURES after it. -/
theorem decodeText_testMessage {rom : TableRom} {cT cE cS cSp cSh c1 c2 c3 : Code} {sh : EntryBits}
    (hT : rom[cT.toNat]? = some 0x154#10) (hE : rom[cE.toNat]? = some 0x145#10) (hS : rom[cS.toNat]? = some 0x153#10)
    (hSp : rom[cSp.toNat]? = some 0x120#10) (hSh : rom[cSh.toNat]? = some sh) (hkind : sh.extractLsb' 8 2 = 0b10#2)
    (htarget : sh.getLsbD 0 = true) (h1 : rom[32 + c1.toNat]? = some 0x131#10)
    (h2 : rom[32 + c2.toNat]? = some 0x132#10) (h3 : rom[32 + c3.toNat]? = some 0x133#10) :
    decodeText rom [cT, cE, cS, cT, cSp, cSh, c1, c2, c3] =
      [0x54#8, 0x45#8, 0x53#8, 0x54#8, 0x20#8, 0x31#8, 0x32#8, 0x33#8] := by
  have letters {c : Code} {e : EntryBits} (h : rom[c.toNat]? = some e) :
      rom[32 * Config.LETTERS.toNat + c.toNat]? = some e := by simpa using h
  have hfigures : sh.extractLsb' 0 1 = Config.FIGURES := by
    refine BitVec.eq_of_getLsbD_eq fun i hi => ?_
    obtain rfl : i = 0 := by omega
    simpa using htarget
  rw [decodeText, decodeFrom_cons_char (letters hT) rfl, decodeFrom_cons_char (letters hE) rfl,
    decodeFrom_cons_char (letters hS) rfl, decodeFrom_cons_char (letters hT) rfl,
    decodeFrom_cons_char (letters hSp) rfl, decodeFrom_cons_shift (letters hSh) hkind, hfigures,
    decodeFrom_cons_char h1 rfl, decodeFrom_cons_char h2 rfl, decodeFrom_cons_char h3 rfl]
  rfl

/-- Settles O43: nine codes make three words, which give the codes back, which the tables turn into the message. -/
theorem testMessageSurvivesThePipeline : Obligations.TestMessageSurvivesThePipeline := by
  intro s cT cE cS cSp cSh c1 c2 c3 sh hT hE hS hSp hSh hkind htarget h1 h2 h3
  have htext := decodeText_testMessage hT hE hS hSp hSh hkind htarget h1 h2 h3
  have hnine : [cT, cE, cS, cT, cSp, cSh, c1, c2, c3].length = 9 := rfl
  generalize [cT, cE, cS, cT, cSp, cSh, c1, c2, c3] = codes at htext hnine ⊢
  have hlen : (codes.map operandOfCode).length = 9 := by rw [List.length_map, hnine]
  obtain ⟨w0, w1, w2, hwords⟩ : ∃ w0 w1 w2, packedWords (codes.map operandOfCode) = [w0, w1, w2] := by
    rw [← List.length_eq_three, packedWords_length, hlen]
    rfl
  have hpack := execAll_packCommands_eq_packedWords (codes.map operandOfCode) s
  obtain ⟨up, hunpack⟩ := execAll_unpackCommands_packedWords (codes := codes.map operandOfCode) (by omega)
    { s with pk := ⟨0#20, 0#5⟩, pkOut := s.pkOut ++ [w0, w1, w2] }
  rw [hwords] at hpack hunpack
  rw [hlen, map_symbolOf_map_operandOfCode] at hunpack
  obtain ⟨dc, hdecode⟩ := execAll_decodeCommands (codes.map operandOfCode)
    { s with pk := ⟨0#20, 0#5⟩, pkOut := s.pkOut ++ [w0, w1, w2], up := up, upOut := s.upOut ++ codes }
  rw [map_symbolOf_map_operandOfCode, htext] at hdecode
  exact ⟨w0, w1, w2, codes, _, _, _, hpack, rfl, hunpack, rfl, hdecode, rfl⟩

end Sys2Proof.Machine

/-! PROOFS. Exceptions (spec/60_exceptions.md): the block raises none. -/

namespace Sys2Proof.Machine

/-- Settles O13: `exec_next` names the next state of each of the seven commands, UP.PUSH both done and not done. -/
theorem everyCommandCompletes : Obligations.EveryCommandCompletes := by
  intro i s
  obtain ⟨t, hexec, -⟩ := exec_next i s
  exact ⟨t, hexec⟩

end Sys2Proof.Machine

/-! PROOFS. Reset (spec/70_reset_and_hazards.md R130, R131): the whole state after the RESET event, and the three START
commands that give the same one. -/

namespace Sys2Proof.Machine

theorem applyReset_eq (s : State) :
    applyReset s = { s with pk := ⟨0#20, 0#5⟩, up := ⟨0#20, 0#5, 0#16, 0#16⟩, dc := ⟨0#1⟩ } :=
  rfl

/-- The three START commands together do what RESET does to the registers, and touch nothing else (R130). -/
theorem execAll_starts_eq_applyReset (pkOpd dcOpd : Operand) (s : State) :
    execAll [.pkStart pkOpd, .upStart 0#16, .dcStart dcOpd] s = .next (applyReset s) := by
  rw [execAll_cons (exec_pkStart ..), execAll_cons (exec_upStart ..), execAll_cons (exec_dcStart ..), execAll_nil]
  rfl

/-- Settles O10: the step at RESET applies it to the state without that input, and the three START commands do the same
there. -/
theorem resetEventWritesEveryRegister : Obligations.ResetEventWritesEveryRegister := by
  intro s rest hpending
  have hstep := step_reset hpending
  constructor
  · rw [hstep, applyReset_eq]
  · rw [hstep, execAll_starts_eq_applyReset]

end Sys2Proof.Machine

/-! PROOFS. The steps that execute no command (spec/92_eei_decisions.md D10, spec/60_exceptions.md), and the completion of
every step. -/

namespace Sys2Proof.Machine

/-- Settles O8: `decode` rejects the word, and the step at a rejected word takes it and does nothing else. -/
theorem reservedWordIsNoOperation : Obligations.ReservedWordIsNoOperation :=
  fun _ _ _ hpending hreserved => step_reserved hpending (decode_reserved hreserved)

/-- Settles O9. -/
theorem nothingPendingIdles : Obligations.NothingPendingIdles :=
  fun _ => step_idle

/-- Settles O14: of the four things a step can do, only executing a command does not show its next state, and every
command completes (R110). -/
theorem everyStepCompletes : Obligations.EveryStepCompletes := by
  intro s
  obtain ⟨-, hidle⟩ | ⟨rest, -, hreset⟩ | ⟨w, rest, i, -, -, hcommand⟩ | ⟨w, rest, r, -, -, hreserved⟩ := step_cases s
  · exact ⟨s, hidle⟩
  · exact ⟨_, hreset⟩
  · rw [hcommand]
    exact everyCommandCompletes i _
  · exact ⟨_, hreserved⟩

end Sys2Proof.Machine
